-- ==== Sys2Proof/Word.lean ====
section
/-! DEFINITION. The word types of the block (00_scope.md R2) and the split of a product into its two words. -/

namespace Sys2Proof

/-- A word of Z, an operand or a result register: 64 bits, and no other width (00_scope.md R2). -/
abbrev Word := BitVec 64

/-- One byte of Z in a byte-addressed view (20_memory.md R22). -/
abbrev Byte := BitVec 8

/-- A product: 128 bits (00_scope.md R2). -/
abbrev Product := BitVec 128

/-- P[63:0], the low word of a product (00_scope.md §5). -/
def Product.low (p : Product) : Word := p.extractLsb' 0 64

/-- P[127:64], the high word of a product (00_scope.md §5). -/
def Product.high (p : Product) : Word := p.extractLsb' 64 64

end Sys2Proof
end

