-- ==== Sys2Proof/Syntax.lean ====
section
/-! DEFINITION. The commands of the block: the transaction as it arrives, the instruction it stands for, and the lines of the assembler. -/

namespace Sys2Proof

/-- One command transaction: the command word and the two operands, which arrive together at ISSUE
(30_encoding.md R32, R39 ports `cmd`, `op_x`, `op_y`). Any value of each is a transaction. -/
structure Transaction where
  /-- CMD[31:0] -/
  cmd : BitVec 32
  /-- X[63:0] -/
  x   : Word
  /-- Y[63:0] -/
  y   : Word
  deriving DecidableEq, Repr

/-- The instructions of spec/opcode_table.json, one constructor per row. -/
inductive Instr where
  /-- MULWACC (40_clmul.md R40): the word offset ZOFF = CMD[25:0] and the operands X and Y. Every value of
  each is a legal encoding (30_encoding.md R35, R36). -/
  | mulwacc (zoff : BitVec 26) (x y : Word)
  deriving DecidableEq, Repr

/-- A line of assembly (30_encoding.md R38), its numbers as they are written. -/
inductive Line where
  /-- `mulwacc <zoff>, <x>, <y>` -/
  | mulwacc (zoff x y : Nat)
  /-- `.cmd 0x<word>, <x>, <y>`, the listing of a command that has no mnemonic -/
  | raw (word x y : Nat)
  deriving DecidableEq, Repr

end Sys2Proof
end

