-- ==== Sys2Proof/Decode.lean ====
section
/-! DEFINITION. The command format (30_encoding.md): fields, decoder, encoder, and the layouts of a transaction's 160 bits. -/

namespace Sys2Proof

/-- OP = CMD[31:28] (30_encoding.md R33). -/
def opField (cmd : BitVec 32) : BitVec 4 := cmd.extractLsb' 28 4

/-- RSV = CMD[27:26] (30_encoding.md R33). -/
def rsvField (cmd : BitVec 32) : BitVec 2 := cmd.extractLsb' 26 2

/-- ZOFF = CMD[25:0] (30_encoding.md R33). -/
def zoffField (cmd : BitVec 32) : BitVec 26 := cmd.extractLsb' 0 26

/-- A command word is MULWACC exactly when `(CMD & 0xFC000000) = 0x10000000` (30_encoding.md R36). -/
def isMulwacc (cmd : BitVec 32) : Bool := (cmd &&& 0xFC000000#32) == 0x10000000#32

/-- Why a command word is no command (the table under 30_encoding.md R37). Each one raises ILLEGAL_COMMAND. -/
inductive Reject where
  /-- OP is 0b0000 or 0b0010 to 0b1111 -/
  | reservedOp
  /-- OP is 0b0001 and RSV is not 0b00 -/
  | reservedRsv
  deriving DecidableEq, Repr

/-- The decoder: total on every transaction (30_encoding.md R36, R37). X and Y are taken as they arrive (R35). -/
def decode (t : Transaction) : Except Reject Instr :=
  if isMulwacc t.cmd then .ok (.mulwacc (zoffField t.cmd) t.x t.y)
  else if opField t.cmd = 0b0001#4 then .error .reservedRsv
  else .error .reservedOp

/-- The command word of a MULWACC at offset `zoff`: OP, RSV, ZOFF (30_encoding.md R33; R38: 0x10000000 | zoff). -/
def mulwaccWord (zoff : BitVec 26) : BitVec 32 := 0b0001#4 ++ 0b00#2 ++ zoff

/-- The encoder, from the bit picture under 30_encoding.md R33. -/
def encode : Instr → Transaction
  | .mulwacc zoff x y => { cmd := mulwaccWord zoff, x := x, y := y }

/-- The transaction as one 160-bit value {CMD, X, Y}, CMD in the high bits (00_scope.md §5, opcode_table.json).
The three arrive on ports of their own (30_encoding.md R39), so no rule rests on this order (log 15). -/
def Transaction.bits (t : Transaction) : BitVec 160 := t.cmd ++ t.x ++ t.y

/-- The transaction that a 160-bit value {CMD, X, Y} stands for. -/
def Transaction.ofBits (b : BitVec 160) : Transaction :=
  { cmd := b.extractLsb' 128 32, x := b.extractLsb' 64 64, y := b.extractLsb' 0 64 }

/-- The decoder on any 160 bits. -/
def decodeBits (b : BitVec 160) : Except Reject Instr := decode (Transaction.ofBits b)

/-- The transaction whose bits are `w`, numbered as opcode_table.json numbers them: bit 0 is bit 0 of CMD, X
follows from bit 32 and Y from bit 96. Bits from `nbits` on are 0 (log 15). -/
def Transaction.ofTable (nbits w : Nat) : Transaction :=
  let v := w % 2 ^ nbits
  { cmd := BitVec.ofNat 32 v, x := BitVec.ofNat 64 (v >>> 32), y := BitVec.ofNat 64 (v >>> 96) }

/-- What the decoder reads from an instruction whose table bits are `w`. -/
def decodeTableWord (nbits w : Nat) : Option Instr :=
  match decode (Transaction.ofTable nbits w) with
  | .ok i => some i
  | .error _ => none

end Sys2Proof
end

