-- ==== Sys2Proof/Config.lean ====
section
/-! DEFINITION. The configuration: what is fixed when the block is built and never written after (10_state.md R8, R16). -/

namespace Sys2Proof

/-- The instantiation parameters of one block.

`r` fixes the length of Z (00_scope.md R3); `latency` is the named parameter LATENCY, left open by the spec
(00_scope.md R4). They stand in State as plain data, so that a statement over all states holds for every value
of both (DESIGN CHOICE, log 1). -/
structure Config where
  /-- the ring's security parameter, one for the whole life of the block -/
  r       : Nat
  /-- LATENCY: the clock cycles from ISSUE to COMPLETE -/
  latency : Nat
  deriving DecidableEq, Repr

/-- The configuration of `State.reset`: the largest legal r, which gives the largest Z (EXT_WORDS = 2^26), and
the smallest LATENCY. DESIGN CHOICE, log 1 (unsafe: a claim could lean on the two numbers): the spec leaves both
to whoever builds the block. -/
def Config.atReset : Config := { r := 2147483647, latency := 1 }

end Sys2Proof
end

