-- ==== Sys2Proof/Machine/State.lean ====
section
/-! DEFINITION. Everything the spec gives the machine, as plain data; the reasons a run stops; the state after reset. -/

namespace Sys2Proof.Machine

/-- The buffer Z as bytes (20_memory.md R20, R22): byte k of word j at address 8j + k. In canonical form
(`Memory.wf`): addresses strictly rising, no entry equal to what an unlisted address reads as. -/
abbrev Memory := List Host.Cell

/-- The cause codes of STATUS.CAUSE (60_exceptions.md R53); 3 to 15 are never produced. -/
inductive Cause where
  /-- code 0: no fault -/
  | none
  /-- code 1 -/
  | illegalCommand
  /-- code 2 -/
  | offsetRange
  deriving DecidableEq, Repr

/-- One access of the block on its port to Z (30_encoding.md R39: `z_addr`, `z_we`, `z_rdata` or `z_wdata`). -/
structure BusAccess where
  /-- `z_we`: true for a write -/
  we   : Bool
  /-- `z_addr` -/
  addr : BitVec 26
  /-- the word read or written -/
  data : Word
  deriving DecidableEq, Repr

/-- What a read of the client's returned (20_memory.md R26, §4; 30_encoding.md R39). -/
inductive Observation where
  /-- word j of Z -/
  | zWord (j : Nat) (v : Word)
  /-- P_LO -/
  | pLo (v : Word)
  /-- P_HI -/
  | pHi (v : Word)
  /-- STATUS -/
  | status (v : BitVec 32)
  /-- FAULT_CMD -/
  | faultCmd (v : BitVec 32)
  deriving DecidableEq, Repr

/-- A command in flight on another instance whose buffer is this Z (20_memory.md R28, 60_exceptions.md R64; log 13). -/
structure OtherCommand where
  /-- its ZOFF -/
  zoff : BitVec 26
  /-- its X -/
  x    : Word
  /-- its Y -/
  y    : Word
  deriving DecidableEq, Repr

/-- What the client and the world outside do next (20_memory.md §4, 70_reset_and_hazards.md R69 to R71; log 8). -/
inductive Event where
  /-- the client offers a command, and no agent steps before its COMPLETE: EXEC(CMD, X, Y) of
  70_reset_and_hazards.md R74 -/
  | exec (t : Transaction)
  /-- the client offers a command and goes on after its ISSUE (70_reset_and_hazards.md R70) -/
  | issue (t : Transaction)
  /-- one clock cycle passes (00_scope.md R4) -/
  | cycle
  /-- the client waits until STATUS.BUSY = 0 (70_reset_and_hazards.md R71 item 2) -/
  | wait
  /-- the client reads word j of Z -/
  | readZ (j : Nat)
  /-- the client writes word j of Z -/
  | writeZ (j : Nat) (v : Word)
  /-- the client reads P_LO -/
  | readPLo
  /-- the client reads P_HI -/
  | readPHi
  /-- the client reads STATUS -/
  | readStatus
  /-- the client reads FAULT_CMD -/
  | readFaultCmd
  /-- `rst` (70_reset_and_hazards.md R65, R68) -/
  | reset
  /-- another instance on this Z accepts a command (20_memory.md R28) -/
  | otherIssue (t : Transaction)
  /-- the k-th command in flight on another instance completes -/
  | otherComplete (k : Nat)
  /-- the instance of the k-th such command is reset and abandons it (70_reset_and_hazards.md R67) -/
  | otherAbandon (k : Nat)
  deriving DecidableEq, Repr

/-- Why a run stops with a fault. Not the block's own faults: those are next states (60_exceptions.md R55). -/
inductive Fault where
  /-- RACE_Z (60_exceptions.md R58, 20_memory.md R27, R28): raised by a client access to a target word in
  flight, and by a command whose target words overlap those of a window that is open on another instance.
  Safe: the spec says a model must fault here. -/
  | raceZ
  /-- UNWRITTEN_RESULT (60_exceptions.md R58, 10_state.md R9): raised by a client read of P_LO or P_HI before
  the first COMPLETE since reset. Safe: the spec says a model must fault here. -/
  | unwrittenResult
  /-- a client access to a word index at or above EXT_WORDS, which no word of Z has (20_memory.md R20, log 7).
  Safe: the model stops. -/
  | noSuchWord
  deriving DecidableEq, Repr

/-- Why there is no step. -/
inductive Refusal where
  /-- an instruction without a meaning; no arm of this model answers it -/
  | notModelled (mnemonic : String)
  /-- InvalidParameter (60_exceptions.md R59): the configuration builds no machine. Raised by `step` and
  `build`. Safe: the spec says a model refuses it. -/
  | invalidParameter
  /-- a Z that is not exactly the words of this configuration (60_exceptions.md R60, 93 #2). Raised by `build`.
  Safe: the spec says it is refused when the model is built. -/
  | wrongBuffer
  /-- ISSUE_WHILE_BLOCKED (60_exceptions.md R58): stuck, not faulted; the client has no step. Raised by a
  command offered when the block will not accept it. Safe (log 11). -/
  | issueWhileBlocked
  deriving DecidableEq, Repr

/-- The machine: the block's registers (10_state.md), the buffer Z (20_memory.md), the configuration, and the
world outside as far as the spec describes it. -/
structure State where
  /-- the instantiation parameters; no step writes them (10_state.md R8) -/
  cfg           : Config
  /-- the extended buffer Z (20_memory.md R20) -/
  z             : Memory
  /-- P_LO (10_state.md R9) -/
  pLo           : Word
  /-- P_HI (10_state.md R9) -/
  pHi           : Word
  /-- whether P_LO and P_HI hold a value: some command completed since reset (10_state.md R9, log 2) -/
  resultWritten : Bool
  /-- STATUS (10_state.md R10) -/
  status        : BitVec 32
  /-- FAULT_CMD (10_state.md R15) -/
  faultCmd      : BitVec 32
  /-- IF_CMD (10_state.md R17) -/
  ifCmd         : BitVec 32
  /-- IF_X (10_state.md R17) -/
  ifX           : Word
  /-- IF_Y (10_state.md R17) -/
  ifY           : Word
  /-- the comb table U[0..15] (10_state.md R18) -/
  u             : Vector Word 16
  /-- clock cycles left of the window of the command in flight (70_reset_and_hazards.md R70, log 8) -/
  remaining     : Nat
  /-- the position in the command stream (10_state.md R19, log 10) -/
  pos           : Nat
  /-- commands in flight on other instances (20_memory.md R28, log 13) -/
  others        : List OtherCommand
  /-- what the client and the world do next, oldest first: the model's own field (log 8) -/
  agenda        : List Event
  /-- what the client's reads returned, newest first: the model's own field (log 16) -/
  reads         : List Observation
  /-- the block's accesses on its Z port, newest first: the model's own field (log 16) -/
  bus           : List BusAccess
  deriving DecidableEq, Repr

/-- The table U at reset. DESIGN CHOICE, log 4: the spec gives it no value. -/
def tableAtReset : Vector Word 16 := #v[0, 0, 0, 0, 0, 0, 0, 0, 0, 0, 0, 0, 0, 0, 0, 0]

/-- The machine as it starts: built for `cfg`, just reset (70_reset_and_hazards.md R65), the client having put
`z` into Z (20_memory.md R20) and intending `agenda`. P_LO, P_HI, IF_CMD, IF_X, IF_Y and U have no value in the
spec: DESIGN CHOICE, log 2, log 3, log 4. -/
def State.launch (cfg : Config) (z : Memory) (agenda : List Event) : State where
  cfg := cfg
  z := z
  pLo := 0
  pHi := 0
  resultWritten := false
  status := 0x00000000#32
  faultCmd := 0x00000000#32
  ifCmd := 0
  ifX := 0
  ifY := 0
  u := tableAtReset
  remaining := 0
  pos := 0
  others := []
  agenda := agenda
  reads := []
  bus := []

/-- The machine right after reset, with nothing placed: no word of Z listed and no command intended
(log 1, log 5, log 14). -/
def State.reset : State := State.launch Config.atReset [] []

end Sys2Proof.Machine
end

