-- ==== Sys2Proof/Machine/Flags.lean ====
section
/-! DEFINITION. STATUS (10_state.md R10 to R14): its fields and the two ways the block writes it. There are no other flags (10_state.md R19, 40_clmul.md R42). -/

namespace Sys2Proof.Machine

/-- The code of a cause in STATUS.CAUSE (60_exceptions.md R53). -/
def Cause.code : Cause → BitVec 4
  | .none => 0
  | .illegalCommand => 1
  | .offsetRange => 2

/-- STATUS.FAULT, bit 0 (10_state.md R10). -/
def faultBit (status : BitVec 32) : Bool := status.getLsbD 0

/-- STATUS.BUSY, bit 1 (10_state.md R10). -/
def busyBit (status : BitVec 32) : Bool := status.getLsbD 1

/-- STATUS.CAUSE, bits 7:4 (10_state.md R10). -/
def causeField (status : BitVec 32) : BitVec 4 := status.extractLsb' 4 4

/-- The reserved bits 3:2 and 31:8 of STATUS, as a mask (10_state.md R10). -/
def reservedMask : BitVec 32 := 0xFFFFFF0C#32

/-- STATUS.BUSY <- 1 (40_clmul.md R40, ISSUE). -/
def setBusy (status : BitVec 32) : BitVec 32 := status ||| 0x00000002#32

/-- STATUS.BUSY <- 0 (40_clmul.md R40, COMPLETE). -/
def clearBusy (status : BitVec 32) : BitVec 32 := status &&& 0xFFFFFFFD#32

/-- STATUS.FAULT <- 1 and STATUS.CAUSE <- c; BUSY and the reserved bits stay (60_exceptions.md R55). -/
def setFault (c : Cause) (status : BitVec 32) : BitVec 32 :=
  (status &&& 0xFFFFFF0E#32) ||| (c.code.setWidth 32 <<< 4) ||| 0x00000001#32

/-- STATUS.FAULT of a state. -/
def State.fault (s : State) : Bool := faultBit s.status

/-- STATUS.BUSY of a state. -/
def State.busy (s : State) : Bool := busyBit s.status

/-- STATUS.CAUSE of a state. -/
def State.cause (s : State) : BitVec 4 := causeField s.status

/-- The port `cmd_ready`: "1 exactly when STATUS.BUSY = 0 and STATUS.FAULT = 0" (30_encoding.md R39,
70_reset_and_hazards.md R70). -/
def State.cmdReady (s : State) : Bool := !s.busy && !s.fault

end Sys2Proof.Machine
end

