-- ==== Sys2Proof/WellFormed.lean ====
section
/-! DEFINITION. What a legal configuration and a well-formed assembly line are.

An `Instr` needs no check: every value of ZOFF, X and Y is a legal command (30_encoding.md R35, R36), and the width
of each field is in its type. -/

namespace Sys2Proof

/-- r is legal exactly when it is odd, positive and below 2^31 (60_exceptions.md R59). -/
def ringLegal (r : Nat) : Bool := r % 2 == 1 && decide (0 < r) && decide (r < 2 ^ 31)

/-- The same test as the source words it, on a 32-bit word: "its low bit set and its sign bit clear"
(60_exceptions.md R59). -/
def ringLegalWord (r : BitVec 32) : Bool := r.getLsbD 0 && !r.msb

/-- EXT_WORDS given directly is legal when it is even and in [2, 2^26] (00_scope.md R3, 60_exceptions.md R59). -/
def extWordsLegal (n : Nat) : Bool := n % 2 == 0 && decide (2 ≤ n) && decide (n ≤ 2 ^ 26)

/-- A configuration builds a machine when r is legal (60_exceptions.md R59) and LATENCY is positive
(00_scope.md R4). -/
def Config.legal (c : Config) : Bool := ringLegal c.r && decide (0 < c.latency)

/-- The numbers of a line fit their fields (30_encoding.md R38): "An assembler refuses a `<zoff>` that does not
fit in 26 bits". -/
def Line.wellFormed : Line → Bool
  | .mulwacc zoff x y => decide (zoff < 2 ^ 26) && decide (x < 2 ^ 64) && decide (y < 2 ^ 64)
  | .raw word x y => decide (word < 2 ^ 32) && decide (x < 2 ^ 64) && decide (y < 2 ^ 64)

end Sys2Proof
end

