-- ==== Sys2Proof/Machine/Params.lean ====
section
/-! DEFINITION. What follows from the configuration: the length of Z, and the configurations that build a machine. -/

namespace Sys2Proof

/-- wordCount = ⌈r/64⌉ (00_scope.md R3). -/
def Config.wordCount (c : Config) : Nat := (c.r + 63) / 64

/-- EXT_WORDS = 2 · wordCount, the number of words of Z (00_scope.md R3). -/
def Config.extWords (c : Config) : Nat := 2 * c.wordCount

/-- The configuration for r, or none: for an illegal r "a model refuses the configuration: it builds no machine"
(60_exceptions.md R59). -/
def Config.ofR (r latency : Nat) : Option Config :=
  let c : Config := { r := r, latency := latency }
  if c.legal then some c else none

/-- The configuration for EXT_WORDS given directly, or none where it is odd, below 2 or above 2^26
(00_scope.md R3, 60_exceptions.md R59). The r it takes is the largest with that EXT_WORDS (log 1). -/
def Config.ofExtWords (n latency : Nat) : Option Config :=
  if extWordsLegal n then Config.ofR (32 * n - 1) latency else none

end Sys2Proof
end

