-- ==== Sys2Proof/Machine/Operands.lean ====
section
/-! DEFINITION. Operand assembly (30_encoding.md R34, R35): the two target words of a command, its range check, and the windows in flight. -/

namespace Sys2Proof.Machine

/-- The word index that ZOFF names: zext(CMD[25:0]), not scaled and added to no base (30_encoding.md R34). It
receives the low product word (20_memory.md R21). -/
abbrev lowIndex (zoff : BitVec 26) : Nat := zoff.toNat

/-- ZOFF + 1, without wrap-around (30_encoding.md R34). It receives the high product word (20_memory.md R21). -/
abbrev highIndex (zoff : BitVec 26) : Nat := zoff.toNat + 1

/-- The range check: ZOFF > EXT_WORDS − 2, "so ZOFF+1 is not a word of Z" (60_exceptions.md R53). -/
def outOfRange (c : Config) (zoff : BitVec 26) : Bool := decide (c.extWords < zoff.toNat + 2)

/-- Word j is one of the two target words of a command at `zoff` (20_memory.md R27). -/
def targets (zoff : BitVec 26) (j : Nat) : Bool := j == lowIndex zoff || j == highIndex zoff

/-- The target words of two commands overlap (20_memory.md R28). -/
def overlap (a b : BitVec 26) : Bool := targets b (lowIndex a) || targets b (highIndex a)

/-- IF_ZOFF = IF_CMD[25:0] (20_memory.md R27). -/
def State.ifZoff (s : State) : BitVec 26 := zoffField s.ifCmd

/-- The offset of the block's own command between ISSUE and COMPLETE, if there is one (20_memory.md R27). -/
def State.ownWindow (s : State) : List (BitVec 26) := if s.busy then [s.ifZoff] else []

/-- The offsets of the commands in flight on this Z: the block's own between ISSUE and COMPLETE, and those of
the other instances (20_memory.md R27, R28). -/
def State.windows (s : State) : List (BitVec 26) :=
  s.ownWindow ++ s.others.map (·.zoff)

/-- An access to word j falls on a target word in flight: RACE_Z (60_exceptions.md R58). -/
def State.racesAt (s : State) (j : Nat) : Bool := s.windows.any (targets · j)

/-- A command at `zoff` overlaps a window that another agent has open: RACE_Z (20_memory.md R28). -/
def State.racesWith (s : State) (zoff : BitVec 26) : Bool := s.windows.any (overlap zoff)

end Sys2Proof.Machine
end

