-- ==== Sys2Proof/Machine/Product.lean ====
section
/-! DEFINITION. The carryless product (00_scope.md R7) and the reference datapath that computes it (40_clmul.md R47 to R49). -/

namespace Sys2Proof.Machine

/-- XOR over the i below n with a[i] = 1 of (zext_128(b) << i). -/
def clmulUpTo (a b : Word) : Nat → Product
  | 0 => 0
  | n + 1 => clmulUpTo a b n ^^^ (if a.getLsbD n then b.setWidth 128 <<< n else 0)

/-- clmul64(a, b): "XOR over i in 0..63 with a[i] = 1 of (zext_128(b) << i)" (00_scope.md R7, second form). -/
def clmul64 (a b : Word) : Product := clmulUpTo a b 64

/-- XOR over the i below n of (a[i] AND b[k − i]), for i ≤ k. -/
def coefficientUpTo (a b : Word) (k : Nat) : Nat → Bool
  | 0 => false
  | n + 1 => coefficientUpTo a b k n ^^ (decide (n ≤ k) && a.getLsbD n && b.getLsbD (k - n))

/-- Bit k of the product as 00_scope.md R7 first writes it: the XOR of a[i] AND b[j] over all 0 ≤ i, j ≤ 63
with i + j = k. -/
def coefficient (a b : Word) (k : Nat) : Bool := coefficientUpTo a b k 64

/-- XOR over the i below n with a[i] = 1 of (1 << 2i) (40_clmul.md R43). -/
def spreadUpTo (a : Word) : Nat → Product
  | 0 => 0
  | n + 1 => spreadUpTo a n ^^^ (if a.getLsbD n then 1#128 <<< (2 * n) else 0)

/-- a with bit i moved to bit 2i (40_clmul.md R43). -/
def spread (a : Word) : Product := spreadUpTo a 64

/-- The table build: U[0] = 0, U[1] = Y, and each even entry is the entry for i/2 shifted left by one, each odd
entry the even one below it plus Y (40_clmul.md R47). Built in full from Y, whatever was there before (R45). -/
def combTable (y : Word) : Vector Word 16 :=
  let u2 := y <<< 1
  let u3 := u2 ^^^ y
  let u4 := u2 <<< 1
  let u5 := u4 ^^^ y
  let u6 := u3 <<< 1
  let u7 := u6 ^^^ y
  let u8 := u4 <<< 1
  let u9 := u8 ^^^ y
  let u10 := u5 <<< 1
  let u11 := u10 ^^^ y
  let u12 := u6 <<< 1
  let u13 := u12 ^^^ y
  let u14 := u7 <<< 1
  let u15 := u14 ^^^ y
  #v[0, y, u2, u3, u4, u5, u6, u7, u8, u9, u10, u11, u12, u13, u14, u15]

/-- One step of the window pass, at bit position k, on the accumulator (lo, hi) (40_clmul.md R48). -/
def windowStep (u : Vector Word 16) (x : Word) (k : Nat) (acc : Word × Word) : Word × Word :=
  let g := u[(x.extractLsb' k 4).toFin]
  (acc.1 ^^^ (g <<< k), if k = 0 then acc.2 else acc.2 ^^^ (g >>> (64 - k)))

/-- The n lowest windows of X, from the high one to the low one (40_clmul.md R48). -/
def windowPass (u : Vector Word 16) (x : Word) : Nat → Word × Word → Word × Word
  | 0, acc => acc
  | n + 1, acc => windowPass u x n (windowStep u x (4 * n) acc)

/-- One pass of the correction, on (c, hi), for the bit Y[63 − p] (40_clmul.md R49). -/
def correctionStep (y : Word) (p : Nat) (acc : Word × Word) : Word × Word :=
  let c := (acc.1 &&& 0xEEEEEEEEEEEEEEEE#64) >>> 1
  let m := 0#64 - (BitVec.ofBool (y.getLsbD (63 - p))).setWidth 64
  (c, acc.2 ^^^ (c &&& m))

/-- The correction pass: what it makes of `hi` (40_clmul.md R49). -/
def correction (x y hi : Word) : Word :=
  (correctionStep y 2 (correctionStep y 1 (correctionStep y 0 (x, hi)))).2

/-- The reference datapath on a table `u`: window pass, then correction, P = {hi, lo} (40_clmul.md R48, R49). -/
def datapathFrom (u : Vector Word 16) (x y : Word) : Product :=
  let acc := windowPass u x 16 (0, 0)
  correction x y acc.2 ++ acc.1

/-- The reference datapath (40_clmul.md R47 to R49). -/
def datapath (x y : Word) : Product := datapathFrom (combTable y) x y

end Sys2Proof.Machine
end

