-- ==== Sys2Proof/Machine/Ops.lean ====
section
/-! DEFINITION. The shared operations: bytes and words of Z, the accumulation and its bus accesses, the fault entry, reset, and the ISSUE, COMPLETE and clock-cycle events. -/

namespace Sys2Proof.Machine

/-! ### Z as bytes -/

/-- What an address that the list does not name reads as. DESIGN CHOICE, log 5: the spec leaves the launch
contents of Z to the client. -/
def unlistedByte : Byte := 0x00#8

/-- The canonical form: addresses strictly rising, and no entry equal to what an unlisted address reads as. -/
def Memory.wf : Memory → Bool
  | [] => true
  | (a, b) :: rest => b != unlistedByte && rest.all (fun c => decide (a < c.1)) && Memory.wf rest

/-- Every listed byte lies in a word of Z: a model builds Z with exactly EXT_WORDS words (60_exceptions.md R60). -/
def Memory.inside (words : Nat) (m : Memory) : Bool := m.all (fun c => decide (c.1 < 8 * words))

/-- Read one byte. -/
def Memory.readByte : Memory → Nat → Byte
  | [], _ => unlistedByte
  | (a', b') :: rest, a => if a = a' then b' else Memory.readByte rest a

/-- Write one byte, keeping the canonical form. -/
def Memory.writeByte : Memory → Nat → Byte → Memory
  | [], a, b => if b = unlistedByte then [] else [(a, b)]
  | (a', b') :: rest, a, b =>
    if a < a' then (if b = unlistedByte then (a', b') :: rest else (a, b) :: (a', b') :: rest)
    else if a = a' then (if b = unlistedByte then rest else (a, b) :: rest)
    else (a', b') :: Memory.writeByte rest a b

/-- Byte k of a word: bits [8k+7 : 8k] (20_memory.md R22). -/
def wordByte (v : Word) (k : Nat) : Byte := v.extractLsb' (8 * k) 8

/-- MemRead(j, 1): the whole word j of Z (20_memory.md R23), byte k of it at address 8j + k (R22). -/
def Memory.readWord (m : Memory) (j : Nat) : Word :=
  m.readByte (8 * j + 7) ++ m.readByte (8 * j + 6) ++ m.readByte (8 * j + 5) ++ m.readByte (8 * j + 4) ++
    m.readByte (8 * j + 3) ++ m.readByte (8 * j + 2) ++ m.readByte (8 * j + 1) ++ m.readByte (8 * j)

/-- Write the n lowest bytes of word j. -/
def Memory.writeBytes (m : Memory) (j : Nat) (v : Word) : Nat → Memory
  | 0 => m
  | n + 1 => (Memory.writeBytes m j v n).writeByte (8 * j + n) (wordByte v n)

/-- MemWrite(j, 1, v): the whole word j of Z (20_memory.md R22, R23). -/
def Memory.writeWord (m : Memory) (j : Nat) (v : Word) : Memory := m.writeBytes j v 8

/-! ### The accumulation -/

/-- Z[ZOFF] <- Z[ZOFF] ⊕ P[63:0] and Z[ZOFF+1] <- Z[ZOFF+1] ⊕ P[127:64], both words read before either is
written (20_memory.md R24, 40_clmul.md R40). -/
def accumulate (z : Memory) (zoff : BitVec 26) (p : Product) : Memory :=
  let lo := z.readWord (lowIndex zoff)
  let hi := z.readWord (highIndex zoff)
  (z.writeWord (lowIndex zoff) (lo ^^^ p.low)).writeWord (highIndex zoff) (hi ^^^ p.high)

/-- The four accesses of that accumulation, newest first: read low, read high, write low, write high
(20_memory.md R24, the order of 40_clmul.md R40). They are made whatever the product is (40_clmul.md R44). -/
def accesses (z : Memory) (zoff : BitVec 26) (p : Product) : List BusAccess :=
  let lo := z.readWord (lowIndex zoff)
  let hi := z.readWord (highIndex zoff)
  [{ we := true, addr := zoff + 1, data := hi ^^^ p.high }, { we := true, addr := zoff, data := lo ^^^ p.low },
    { we := false, addr := zoff + 1, data := hi }, { we := false, addr := zoff, data := lo }]

/-! ### Fault entry, and reset, which alone leaves it -/

/-- raise <Fault>(CMD) (60_exceptions.md R55): FAULT <- 1, CAUSE <- code, FAULT_CMD <- CMD, and nothing else. -/
def raise (c : Cause) (cmd : BitVec 32) (s : State) : State :=
  { s with status := setFault c s.status, faultCmd := cmd }

/-- `rst`: every piece of block state as 70_reset_and_hazards.md R65 lists it; Z is neither read nor written
(R66), and a command in flight is abandoned (R67). It is the only way out of the fault state (60_exceptions.md
R57). P_LO, P_HI, the latches and U take the values they have in `State.launch` (log 2, log 3, log 4). The position returns
to 0 and the client's stream is not rewound: what is left of the agenda is the new stream (DESIGN CHOICE, log 21). -/
def resetBlock (s : State) : State :=
  { s with
    pLo := 0
    pHi := 0
    resultWritten := false
    status := 0x00000000#32
    faultCmd := 0x00000000#32
    ifCmd := 0
    ifX := 0
    ifY := 0
    u := tableAtReset
    remaining := 0
    pos := 0 }

/-- Build the machine for r and LATENCY with the client's Z, or refuse: an illegal r (60_exceptions.md R59), or a
Z that is not exactly EXT_WORDS words (60_exceptions.md R60). -/
def build (r latency : Nat) (z : Memory) (agenda : List Event) : Except Refusal State :=
  match Config.ofR r latency with
  | none => .error .invalidParameter
  | some c => if z.wf && z.inside c.extWords then .ok (State.launch c z agenda) else .error .wrongBuffer

/-! ### The events of a command -/

/-- The end of ISSUE: IF_CMD <- CMD, IF_X <- X, IF_Y <- Y, STATUS.BUSY <- 1 (40_clmul.md R40), and the window of
LATENCY cycles opens (70_reset_and_hazards.md R70). -/
def latch (t : Transaction) (s : State) : State :=
  { s with
    ifCmd := t.cmd
    ifX := t.x
    ifY := t.y
    status := setBusy s.status
    remaining := s.cfg.latency }

/-- COMPLETE (40_clmul.md R40), on the latched copies (10_state.md R17): the accumulation into Z, P_LO and P_HI,
the table U rebuilt from Y (40_clmul.md R45; the time within the command is log 4), STATUS.BUSY <- 0. -/
def complete (s : State) : State :=
  let p := clmul64 s.ifX s.ifY
  { s with
    z := accumulate s.z s.ifZoff p
    pLo := p.low
    pHi := p.high
    resultWritten := true
    u := combTable s.ifY
    status := clearBusy s.status
    remaining := 0
    bus := accesses s.z s.ifZoff p ++ s.bus }

/-- One cycle less is left of the window. -/
def shorten (s : State) : State := { s with remaining := s.remaining - 1 }

/-- One clock cycle: the window of the command in flight shortens, and its last cycle is COMPLETE
(70_reset_and_hazards.md R70, R72). With no command in flight the block does nothing. -/
def tick (s : State) : State :=
  if s.busy then (if s.remaining ≤ 1 then complete s else shorten s)
  else s

end Sys2Proof.Machine
end

