-- ==== Sys2Proof/Machine/Client.lean ====
section
/-! DEFINITION. The client's accesses (20_memory.md §4, 70_reset_and_hazards.md R71) and the other instances on the same Z (20_memory.md R28). -/

namespace Sys2Proof.Machine

/-! ### The client -/

/-- A client access to word j of Z, allowed on every word but a target word in flight (20_memory.md R27,
70_reset_and_hazards.md R71 items 1 and 3); an index that is no word of Z stops (log 7). -/
def accessZ (j : Nat) (s : State) (effect : State → State) : Host.Outcome State Fault Refusal :=
  if s.cfg.extWords ≤ j then .fault .noSuchWord
  else if s.racesAt j then .fault .raceZ
  else .next (effect s)

/-- The client notes what a read returned. -/
def observe (o : Observation) (s : State) : State := { s with reads := o :: s.reads }

/-- Z holds other contents. -/
def putZ (z : Memory) (s : State) : State := { s with z := z }

/-- Other commands are in flight on other instances. -/
def putOthers (os : List OtherCommand) (s : State) : State := { s with others := os }

/-- The client reads word j of Z; no read has a side effect on Z (20_memory.md R25). -/
def clientReadZ (j : Nat) (s : State) : Host.Outcome State Fault Refusal :=
  accessZ j s fun s => observe (.zWord j (s.z.readWord j)) s

/-- The client writes word j of Z. -/
def clientWriteZ (j : Nat) (v : Word) (s : State) : Host.Outcome State Fault Refusal :=
  accessZ j s fun s => putZ (s.z.writeWord j v) s

/-- The client reads a result register. Once some command completed since reset it returns the register, in a window
too, where that is the previous product (70_reset_and_hazards.md R71 item 2). Before that, idle or in the window of the
first command, R71 has "no value if there was none since reset", R65 "a model treats them as unwritten", and the read
"faults the model's run (it gives no value)": UNWRITTEN_RESULT (10_state.md R9, 60_exceptions.md R58; log 2). -/
def readResult (o : Observation) (s : State) : Host.Outcome State Fault Refusal :=
  if s.resultWritten then .next (observe o s) else .fault .unwrittenResult

/-- The client reads P_LO. -/
def clientReadPLo (s : State) : Host.Outcome State Fault Refusal := readResult (.pLo s.pLo) s

/-- The client reads P_HI. -/
def clientReadPHi (s : State) : Host.Outcome State Fault Refusal := readResult (.pHi s.pHi) s

/-- The client reads STATUS, at any time (30_encoding.md R39). -/
def clientReadStatus (s : State) : State := observe (.status s.status) s

/-- The client reads FAULT_CMD, at any time (30_encoding.md R39). -/
def clientReadFaultCmd (s : State) : State := observe (.faultCmd s.faultCmd) s

/-! ### Other instances on the same Z (log 13) -/

/-- Another, idle instance accepts a command. One that faults there makes no access (60_exceptions.md R55); one
that overlaps a window already open is RACE_Z (20_memory.md R28). -/
def otherIssue (t : Transaction) (s : State) : Host.Outcome State Fault Refusal :=
  match decode t with
  | .error _ => .next s
  | .ok (.mulwacc zoff x y) =>
    if outOfRange s.cfg zoff then .next s
    else if s.racesWith zoff then .fault .raceZ
    else .next (putOthers (s.others ++ [{ zoff := zoff, x := x, y := y }]) s)

/-- The k-th of those commands completes: the same accumulation into Z (40_clmul.md R40). Its product registers
are its own. -/
def otherComplete (k : Nat) (s : State) : State :=
  match s.others[k]? with
  | none => s
  | some o => putOthers (s.others.eraseIdx k) (putZ (accumulate s.z o.zoff (clmul64 o.x o.y)) s)

/-- The k-th of those commands is abandoned by a reset of its instance (70_reset_and_hazards.md R67). -/
def otherAbandon (k : Nat) (s : State) : State := putOthers (s.others.eraseIdx k) s

end Sys2Proof.Machine
end

