-- ==== Sys2Proof/Machine/Mulwacc.lean ====
section
/-! DEFINITION. The one family, carryless multiply-accumulate (40_clmul.md): ISSUE of MULWACC, and its whole effect. -/

namespace Sys2Proof.Machine

/-- ISSUE of a MULWACC (40_clmul.md R40): only when STATUS.BUSY = 0 and STATUS.FAULT = 0; the range check
(60_exceptions.md R53); the race check against windows open on other instances (20_memory.md R28); the latches.
ILLEGAL_COMMAND is checked before this, where the command word is decoded (60_exceptions.md R54). -/
def issueMulwacc (zoff : BitVec 26) (x y : Word) (s : State) : Host.Outcome State Fault Refusal :=
  let t := encode (.mulwacc zoff x y)
  if !s.cmdReady then .refused .issueWhileBlocked
  else if outOfRange s.cfg zoff then .next (raise .offsetRange t.cmd s)
  else if s.racesWith zoff then .fault .raceZ
  else .next (latch t s)

/-- ISSUE of an instruction. -/
def issueInstr : Instr → State → Host.Outcome State Fault Refusal
  | .mulwacc zoff x y, s => issueMulwacc zoff x y s

/-- After an ISSUE, the COMPLETE of the command it put in flight; a command that faulted has none. -/
def finish : Host.Outcome State Fault Refusal → Host.Outcome State Fault Refusal
  | .next s => .next (if s.busy then complete s else s)
  | .fault r => .fault r
  | .refused r => .refused r

/-- MULWACC (40_clmul.md R40) as the one atomic step EXEC(CMD, X, Y) of 70_reset_and_hazards.md R74: "the ISSUE
checks and, if they pass, the COMPLETE effects". -/
def execMulwacc (zoff : BitVec 26) (x y : Word) (s : State) : Host.Outcome State Fault Refusal :=
  finish (issueMulwacc zoff x y s)

end Sys2Proof.Machine
end

