-- ==== Sys2Proof/Machine/Agenda.lean ====
section
/-! DEFINITION. The next event: fetching a command from the client's stream, and every other event of the agenda. -/

namespace Sys2Proof.Machine

/-- A command word the decoder rejects raises ILLEGAL_COMMAND (60_exceptions.md R53, R54); a decoded one runs. -/
def dispatchCommand (run : Instr → State → Host.Outcome State Fault Refusal) (t : Transaction) (s : State) :
    Host.Outcome State Fault Refusal :=
  match decode t with
  | .error _ => .next (raise .illegalCommand t.cmd s)
  | .ok i => run i s

/-- ISSUE takes the command off the client's stream, and the position advances by one (10_state.md R19, log 10). -/
def accept (rest : List Event) (s : State) : State := { s with agenda := rest, pos := s.pos + 1 }

/-- An offered command: accepted when `cmd_ready` = 1; while BUSY = 1 it waits at the port and a cycle passes;
under FAULT = 1 the client is stuck (70_reset_and_hazards.md R70, 60_exceptions.md R58, log 11). -/
def offer (run : Instr → State → Host.Outcome State Fault Refusal) (t : Transaction) (rest : List Event) (s : State) :
    Host.Outcome State Fault Refusal :=
  if s.cmdReady then dispatchCommand run t (accept rest s)
  else if s.busy then .next (tick s)
  else .refused .issueWhileBlocked

/-- The client goes on with the rest of its agenda. -/
def proceed (rest : List Event) (s : State) : State := { s with agenda := rest }

/-- The effect of event `e`, the rest of the agenda being `rest`. -/
def takeEvent (e : Event) (rest : List Event) (s : State) : Host.Outcome State Fault Refusal :=
  match e with
  | .exec t => offer exec t rest s
  | .issue t => offer issueInstr t rest s
  | .cycle => .next (tick (proceed rest s))
  | .wait => .next (if s.busy then tick s else proceed rest s)
  | .readZ j => clientReadZ j (proceed rest s)
  | .writeZ j v => clientWriteZ j v (proceed rest s)
  | .readPLo => clientReadPLo (proceed rest s)
  | .readPHi => clientReadPHi (proceed rest s)
  | .readStatus => .next (clientReadStatus (proceed rest s))
  | .readFaultCmd => .next (clientReadFaultCmd (proceed rest s))
  | .reset => .next (resetBlock (proceed rest s))
  | .otherIssue t => otherIssue t (proceed rest s)
  | .otherComplete k => .next (otherComplete k (proceed rest s))
  | .otherAbandon k => .next (otherAbandon k (proceed rest s))

/-- One step of a legal machine. With nothing left on the agenda a clock cycle passes: a command in flight goes on
to its COMPLETE, and an idle block stays as it is. -/
def nextEvent (s : State) : Host.Outcome State Fault Refusal :=
  match s.agenda with
  | [] => .next (tick s)
  | e :: rest => takeEvent e rest s

end Sys2Proof.Machine
end

