-- ==== Sys2Proof/Machine/Step.lean ====
section
/-! DEFINITION. The step function, and how a command is put where the step takes its next one. -/

namespace Sys2Proof.Machine

/-- One step: the next event of the agenda. An illegal configuration builds no machine (60_exceptions.md R59,
log 12). -/
def step (s : State) : Host.Outcome State Fault Refusal :=
  if s.cfg.legal then nextEvent s else .refused .invalidParameter

/-- The command with table bits `w`, at the front of the client's agenda as an EXEC event, so that the next step
offers it (10_state.md R19: commands come from the client's stream, not from memory; log 14). -/
def State.withFetchWord (s : State) (nbits w : Nat) : State :=
  { s with agenda := .exec (Transaction.ofTable nbits w) :: s.agenda }

end Sys2Proof.Machine
end

