-- ==== Sys2Proof/Machine/Assembler.lean ====
section
/-! DEFINITION. The assembler of 30_encoding.md R38: text to line, line to transaction, and the listing of a transaction. -/

namespace Sys2Proof.Machine

/-- "The line assembles to the transaction CMD = 0x10000000 | zoff, X = x, Y = y"; a number that does not fit its
field is refused (30_encoding.md R38). -/
def assemble (l : Line) : Option Transaction :=
  if l.wellFormed then
    match l with
    | .mulwacc zoff x y =>
      some { cmd := 0x10000000#32 ||| BitVec.ofNat 32 zoff, x := BitVec.ofNat 64 x, y := BitVec.ofNat 64 y }
    | .raw word x y => some { cmd := BitVec.ofNat 32 word, x := BitVec.ofNat 64 x, y := BitVec.ofNat 64 y }
  else none

/-- The line that lists a transaction: the mnemonic where there is one, `.cmd` otherwise (30_encoding.md R38). -/
def listing (t : Transaction) : Line :=
  match decode t with
  | .ok (.mulwacc zoff x y) => .mulwacc zoff.toNat x.toNat y.toNat
  | .error _ => .raw t.cmd.toNat t.x.toNat t.y.toNat

/-- The value of a digit in base ten or sixteen; letters of either case (log 20). -/
def digitValue (base : Nat) (c : Char) : Option Nat :=
  let n := c.toNat
  let v := if 48 ≤ n ∧ n ≤ 57 then some (n - 48)
    else if 97 ≤ n ∧ n ≤ 102 then some (n - 87)
    else if 65 ≤ n ∧ n ≤ 70 then some (n - 55)
    else none
  match v with
  | some d => if d < base then some d else none
  | none => none

/-- The digits at the front of the text, as a number, after a value already read; the rest of the text follows. -/
def readDigits (base : Nat) : List Char → Nat → Nat × List Char
  | [], v => (v, [])
  | c :: cs, v =>
    match digitValue base c with
    | some d => readDigits base cs (base * v + d)
    | none => (v, c :: cs)

/-- One or more digits. -/
def readDigits1 (base : Nat) : List Char → Option (Nat × List Char)
  | [] => none
  | c :: cs =>
    match digitValue base c with
    | some d => some (readDigits base cs d)
    | none => none

/-- A hexadecimal number with its 0x prefix. -/
def readHex : List Char → Option (Nat × List Char)
  | '0' :: 'x' :: cs => readDigits1 16 cs
  | _ => none

/-- An unsigned decimal or 0x-prefixed hexadecimal number. -/
def readNumber (cs : List Char) : Option (Nat × List Char) :=
  match readHex cs with
  | some r => some r
  | none => readDigits1 10 cs

/-- The text without the spaces at its front (log 20). -/
def skipSpaces (cs : List Char) : List Char := cs.dropWhile (· == ' ')

/-- A comma, with spaces allowed about it. -/
def readComma (cs : List Char) : Option (List Char) :=
  match skipSpaces cs with
  | ',' :: rest => some (skipSpaces rest)
  | _ => none

/-- The two operands `, <x>, <y>` that end every line, in hexadecimal. -/
def readOperands (cs : List Char) : Option (Nat × Nat) := do
  let (x, cs) ← readHex (← readComma cs)
  let (y, cs) ← readHex (← readComma cs)
  if skipSpaces cs = [] then some (x, y) else none

/-- The text of one line (30_encoding.md R38). -/
def parseLine (cs : List Char) : Option Line :=
  match skipSpaces cs with
  | 'm' :: 'u' :: 'l' :: 'w' :: 'a' :: 'c' :: 'c' :: ' ' :: rest => do
    let (zoff, cs) ← readNumber (skipSpaces rest)
    let (x, y) ← readOperands cs
    some (.mulwacc zoff x y)
  | '.' :: 'c' :: 'm' :: 'd' :: ' ' :: rest => do
    let (word, cs) ← readHex (skipSpaces rest)
    let (x, y) ← readOperands cs
    some (.raw word x y)
  | _ => none

/-- Text to transaction. -/
def assembleText (text : String) : Option Transaction :=
  match parseLine text.toList with
  | some l => assemble l
  | none => none

end Sys2Proof.Machine
end

