-- ==== Sys2Proof/Safety.lean ====
section
/-! DEFINITION. What statements are written with: the end of a run, the invariant of the machine, the polynomial that Z holds, and what an observer without the secrets sees. -/

namespace Sys2Proof.Machine

/-! ### Runs -/

/-- n steps, stopping at the first fault or refusal: `Host.Core.run` of this machine, with its state type written
out (`run_eq_core`). -/
def run : Nat → State → Host.Outcome State Fault Refusal
  | 0, s => .next s
  | n + 1, s =>
    match step s with
    | .next s' => run n s'
    | .fault r => .fault r
    | .refused r => .refused r

/-! ### The end of a run (70_reset_and_hazards.md R75) -/

/-- The client issues a command of this block. -/
def Event.isCommand : Event → Bool
  | .exec _ => true
  | .issue _ => true
  | .cycle => false
  | .wait => false
  | .readZ _ => false
  | .writeZ _ _ => false
  | .readPLo => false
  | .readPHi => false
  | .readStatus => false
  | .readFaultCmd => false
  | .reset => false
  | .otherIssue _ => false
  | .otherComplete _ => false
  | .otherAbandon _ => false

/-- The head of the agenda is a command the client offers. -/
def offersCommand : List Event → Bool
  | [] => false
  | e :: _ => e.isCommand

/-- The client has a command left to issue. -/
def commandsLeft (agenda : List Event) : Bool := agenda.any Event.isCommand

/-- "A run of the block ends successfully when the client has no command left to issue, STATUS.BUSY = 0,
STATUS.FAULT = 0, and no model-level fault has been recorded" (a model-level fault leaves no state at all). Reads,
writes and resets of the client, cycles, and other instances' events may be left. -/
def State.successfulEnd (s : State) : Bool := !commandsLeft s.agenda && !s.busy && !s.fault

/-- The client waits for a command that the block will never accept: "stuck, not ended". -/
def State.stuck (s : State) : Bool := offersCommand s.agenda && !s.busy && s.fault

/-! ### The invariant -/

/-- STATUS in every state a run shows: the reserved bits are 0, CAUSE is 0, 1 or 2, CAUSE is 0 exactly while
FAULT = 0, and a faulted block is not busy (10_state.md R10 to R14). -/
abbrev StatusLegal (status : BitVec 32) : Prop :=
  status &&& reservedMask = 0 ∧
    (causeField status = 0 ∨ causeField status = 1 ∨ causeField status = 2) ∧
    (faultBit status = false ↔ causeField status = 0) ∧ ¬ (faultBit status = true ∧ busyBit status = true)

/-- FAULT_CMD in every state a run shows: 0 without a fault, an illegal word after ILLEGAL_COMMAND, a MULWACC out
of range after OFFSET_RANGE (10_state.md R15, 60_exceptions.md R53). -/
abbrev FaultCmdLegal (s : State) : Prop :=
  (s.fault = false → s.faultCmd = 0) ∧
    (s.cause = Cause.illegalCommand.code → isMulwacc s.faultCmd = false) ∧
    (s.cause = Cause.offsetRange.code →
      isMulwacc s.faultCmd = true ∧ outOfRange s.cfg (zoffField s.faultCmd) = true)

/-- The command in flight is a MULWACC in range with 1 to LATENCY cycles left; without one, none are left
(40_clmul.md R40, 70_reset_and_hazards.md R70). -/
abbrev WindowLegal (s : State) : Prop :=
  (s.busy = true →
    isMulwacc s.ifCmd = true ∧ outOfRange s.cfg s.ifZoff = false ∧ 0 < s.remaining ∧ s.remaining ≤ s.cfg.latency) ∧
    (s.busy = false → s.remaining = 0)

/-- The target words in flight are words of Z, and no two windows overlap (20_memory.md R27, R28). -/
abbrev WindowsLegal (s : State) : Prop :=
  (∀ w ∈ s.windows, outOfRange s.cfg w = false) ∧ s.windows.Pairwise (fun a b => overlap a b = false)

/-- Z is in canonical form and has no byte outside its EXT_WORDS words (20_memory.md R20, 60_exceptions.md R60). -/
abbrev BufferLegal (s : State) : Prop := s.z.wf = true ∧ s.z.inside s.cfg.extWords = true

/-- Once P_LO and P_HI hold a value their top bit is 0 (40_clmul.md R41 item 1); outside a window they hold the
product of the latched operands, and U the table of the latched Y (10_state.md R9, R18). -/
abbrev ResultLegal (s : State) : Prop :=
  s.resultWritten = true →
    s.pHi.msb = false ∧
      (s.busy = false → s.pHi ++ s.pLo = clmul64 s.ifX s.ifY ∧ s.u = combTable s.ifY)

/-- The invariant of the machine: what every step keeps. -/
structure MachineInvariant (s : State) : Prop where
  /-- the configuration builds a machine (60_exceptions.md R59) -/
  config   : s.cfg.legal = true
  /-- STATUS (10_state.md R10 to R14) -/
  status   : StatusLegal s.status
  /-- FAULT_CMD (10_state.md R15) -/
  faultCmd : FaultCmdLegal s
  /-- the command in flight (70_reset_and_hazards.md R70) -/
  window   : WindowLegal s
  /-- all windows on Z (20_memory.md R27, R28) -/
  windows  : WindowsLegal s
  /-- Z (20_memory.md R20) -/
  buffer   : BufferLegal s
  /-- P_LO, P_HI and U (10_state.md R9, R18) -/
  result   : ResultLegal s

/-! ### Z as a polynomial (00_scope.md R5) -/

/-- The coefficient of degree n of the polynomial that Z holds: bit n mod 64 of word n div 64 (00_scope.md R5). -/
def zCoefficient (z : Memory) (n : Nat) : Bool := (z.readWord (n / 64)).getLsbD (n % 64)

/-- The coefficient of degree n of the polynomial P · t^(64 · ZOFF) (20_memory.md R21, 40_clmul.md R51). -/
def productCoefficient (i : Instr) (n : Nat) : Bool :=
  match i with
  | .mulwacc zoff x y => decide (64 * lowIndex zoff ≤ n) && (clmul64 x y).getLsbD (n - 64 * lowIndex zoff)

/-- The XOR over a sequence of commands of the coefficients of degree n of their products at their offsets
(40_clmul.md R51). -/
def totalCoefficient (is : List Instr) (n : Nat) : Bool :=
  is.foldr (fun i acc => productCoefficient i n ^^ acc) false

/-- An instruction the block completes in configuration c: its offset is in range. -/
def inRange (c : Config) : Instr → Bool
  | .mulwacc zoff _ _ => !outOfRange c zoff

/-- No target word of the instruction is in flight (20_memory.md R28). -/
def noRace (s : State) : Instr → Bool
  | .mulwacc zoff _ _ => !s.racesWith zoff

/-- The product of an instruction. -/
def productOf : Instr → Product
  | .mulwacc _ x y => clmul64 x y

/-! ### What does not depend on secrets (40_clmul.md R44) -/

/-- A transaction without its operands: "ZOFF and the command word are treated as public". -/
def publicTransaction (t : Transaction) : Transaction := { cmd := t.cmd, x := 0, y := 0 }

/-- An event without the operands and words it carries. -/
def publicEvent : Event → Event
  | .exec t => .exec (publicTransaction t)
  | .issue t => .issue (publicTransaction t)
  | .writeZ j _ => .writeZ j 0
  | .otherIssue t => .otherIssue (publicTransaction t)
  | .cycle => .cycle
  | .wait => .wait
  | .readZ j => .readZ j
  | .readPLo => .readPLo
  | .readPHi => .readPHi
  | .readStatus => .readStatus
  | .readFaultCmd => .readFaultCmd
  | .reset => .reset
  | .otherComplete k => .otherComplete k
  | .otherAbandon k => .otherAbandon k

/-- That a read happened, without the word of Z or the product it returned. -/
def publicObservation : Observation → Observation
  | .zWord j _ => .zWord j 0
  | .pLo _ => .pLo 0
  | .pHi _ => .pHi 0
  | .status v => .status v
  | .faultCmd v => .faultCmd v

/-- What an observer of the block's timing and of its accesses to Z sees: no operand, no word of Z, no product. -/
structure PublicView where
  /-- EXT_WORDS and LATENCY -/
  cfg           : Config
  /-- STATUS: BUSY shows when a command completes -/
  status        : BitVec 32
  /-- FAULT_CMD -/
  faultCmd      : BitVec 32
  /-- the command word in flight -/
  ifCmd         : BitVec 32
  /-- the cycles left of the window -/
  remaining     : Nat
  /-- the position in the stream -/
  pos           : Nat
  /-- whether some command completed -/
  resultWritten : Bool
  /-- the offsets in flight on other instances -/
  others        : List (BitVec 26)
  /-- what the agents will do -/
  agenda        : List Event
  /-- which reads the client made -/
  reads         : List Observation
  /-- which words of Z the block accessed, in which order, and whether it wrote -/
  bus           : List (Bool × BitVec 26)
  deriving DecidableEq, Repr

/-- The public view of a state. -/
def State.publicView (s : State) : PublicView where
  cfg := s.cfg
  status := s.status
  faultCmd := s.faultCmd
  ifCmd := s.ifCmd
  remaining := s.remaining
  pos := s.pos
  resultWritten := s.resultWritten
  others := s.others.map (·.zoff)
  agenda := s.agenda.map publicEvent
  reads := s.reads.map publicObservation
  bus := s.bus.map fun a => (a.we, a.addr)

/-- The public view of an outcome. -/
def publicOutcome : Host.Outcome State Fault Refusal → Host.Outcome PublicView Fault Refusal
  | .next s => .next s.publicView
  | .fault r => .fault r
  | .refused r => .refused r

end Sys2Proof.Machine
end

