-- ==== Sys2Proof/Certificates/Slice0/Obligations.lean ====
section
/-! DEFINITION. The statements about the model, for the provers. Each docstring names the rule it formalises and, where a clause rests on a choice of the model, the log entry. -/

open Sys2Proof Sys2Proof.Machine

/-! ### The command format -/

/-- Words written out from the encoding of 30_encoding.md R33, R36 to R38 decode to what they stand for: the R38
example, the largest ZOFF, and words whose OP or RSV is reserved. -/
def Obligations.SpecWordsDecode : Prop :=
  decode ⟨0b00010000000000000000000000000001#32, 0x3, 0x5⟩ = .ok (.mulwacc 1 0x3 0x5) ∧
    decode ⟨0b00010011111111111111111111111110#32, 0x1, 0x1⟩ = .ok (.mulwacc 0x3fffffe 0x1 0x1) ∧
    decode ⟨0b00000000000000000000000000000000#32, 0x1, 0x1⟩ = .error .reservedOp ∧
    decode ⟨0b00100011111111111111111111111111#32, 0x1, 0x1⟩ = .error .reservedOp ∧
    decode ⟨0b00010100000000000000000000000000#32, 0x1, 0x1⟩ = .error .reservedRsv

/-- Decode and encode agree on every transaction and every instruction (30_encoding.md R32 to R35), also through the
160-bit value {CMD, X, Y}, whose order is the model's (log 15). -/
def Obligations.DecodeAndEncodeAgree : Prop :=
  (∀ (t : Transaction) (i : Instr), decode t = .ok i ↔ encode i = t) ∧
    (∀ t : Transaction, Transaction.ofBits t.bits = t) ∧ (∀ b : BitVec 160, (Transaction.ofBits b).bits = b) ∧
    (∀ i : Instr, decodeBits (encode i).bits = .ok i)

/-- 30_encoding.md R36: the mask test is OP = 0b0001 and RSV = 0b00; every other word is illegal, by name; no ZOFF
makes a word illegal; issuing an illegal word raises ILLEGAL_COMMAND, and a MULWACC whose ZOFF is out of range
OFFSET_RANGE instead. -/
def Obligations.CommandWordIsMulwaccByOpAndRsv : Prop :=
  (∀ cmd : BitVec 32, (cmd &&& 0xFC000000#32 = 0x10000000#32 ↔ opField cmd = 0b0001#4 ∧ rsvField cmd = 0b00#2) ∧
      (isMulwacc cmd = true ↔ cmd &&& 0xFC000000#32 = 0x10000000#32)) ∧
    (∀ t : Transaction, (∃ i, decode t = .ok i) ↔ isMulwacc t.cmd = true) ∧
    (∀ t : Transaction, decode t = .error .reservedOp ↔ opField t.cmd ≠ 0b0001#4) ∧
    (∀ t : Transaction, decode t = .error .reservedRsv ↔ opField t.cmd = 0b0001#4 ∧ rsvField t.cmd ≠ 0b00#2) ∧
    (∀ (zoff : BitVec 26) (x y : Word), decode ⟨0b0001#4 ++ 0b00#2 ++ zoff, x, y⟩ = .ok (.mulwacc zoff x y)) ∧
    (∀ (s : State) (t : Transaction) (rest : List Event), s.cfg.legal = true → s.cmdReady = true →
      s.agenda = .issue t :: rest ∨ s.agenda = .exec t :: rest →
        (isMulwacc t.cmd = false → ∃ u, step s = .next u ∧ u.fault = true ∧ u.cause = 1) ∧
          (isMulwacc t.cmd = true → s.cfg.extWords - 2 < (zoffField t.cmd).toNat →
            ∃ u, step s = .next u ∧ u.fault = true ∧ u.cause = 2))

/-- 30_encoding.md R38: a transaction's listing assembles back to it; a `<zoff>` that does not fit in 26 bits is
refused; a line in range assembles to 0x10000000 | zoff with its operands, and decodes to MULWACC. -/
def Obligations.AssemblerIsInverseOfListing : Prop :=
  (∀ t : Transaction, assemble (listing t) = some t) ∧
    (∀ zoff x y : Nat, 2 ^ 26 ≤ zoff → assemble (.mulwacc zoff x y) = none) ∧
    (∀ (zoff : BitVec 26) (x y : Word),
      assemble (.mulwacc zoff.toNat x.toNat y.toNat) = some ⟨0x10000000#32 ||| zoff.setWidth 32, x, y⟩ ∧
        assemble (.mulwacc zoff.toNat x.toNat y.toNat) = some (encode (.mulwacc zoff x y)))

/-! ### The product -/

/-- 00_scope.md R7: bit k of clmul64(a, b) is the XOR of a[i] AND b[j] over all i + j = k, and the product is the XOR
of the shifted copies of b. -/
def Obligations.ProductBitsAreConvolution : Prop :=
  ∀ a b : Word,
    (∀ k, k < 128 → (clmul64 a b).getLsbD k = coefficient a b k) ∧
      clmul64 a b =
        ((List.range 64).filter fun i => a.getLsbD i).foldl (fun p i => p ^^^ (b.setWidth 128 <<< i)) (0 : Product)

/-- 40_clmul.md R41 items 2 and 3: the product is commutative and bilinear over XOR. -/
def Obligations.ProductCommutesAndDistributes : Prop :=
  ∀ a b c : Word, clmul64 a b = clmul64 b a ∧ clmul64 (a ^^^ b) c = clmul64 a c ^^^ clmul64 b c ∧
    clmul64 a (b ^^^ c) = clmul64 a b ^^^ clmul64 a c

/-- 40_clmul.md R41 items 4 and 5: zero, one and the powers of t. -/
def Obligations.ProductOfZeroOneAndPowers : Prop :=
  ∀ b : Word, clmul64 0 b = 0 ∧ clmul64 1 b = b.setWidth 128 ∧
    ∀ i, i < 64 → clmul64 (1#64 <<< i) b = b.setWidth 128 <<< i

/-- 40_clmul.md R41 items 1 and 6: P[127] = 0; the degree of a product is the sum of the degrees; and P[127:64] = 0
whenever that sum is at most 63. -/
def Obligations.ProductDegreeIsSumOfDegrees : Prop :=
  ∀ a b : Word, (clmul64 a b).getLsbD 127 = false ∧
    (a ≠ 0 → b ≠ 0 → (clmul64 a b).toNat.log2 = a.toNat.log2 + b.toNat.log2 ∧ clmul64 a b ≠ 0 ∧
      (a.toNat.log2 + b.toNat.log2 ≤ 63 → (clmul64 a b).high = 0))

/-- 40_clmul.md R43: clmul64(a, a) is a with bit i moved to bit 2i and every odd bit zero. -/
def Obligations.SquareSpreadsBits : Prop :=
  ∀ a : Word, clmul64 a a = spread a ∧
    ∀ i, i < 64 → (clmul64 a a).getLsbD (2 * i) = a.getLsbD i ∧ (clmul64 a a).getLsbD (2 * i + 1) = false

/-- 40_clmul.md R47: the table build, entry by entry, and what each entry is: the low word of the product of its
index with Y, the XOR of Y << b over the set bits b of the index. -/
def Obligations.CombTableEntriesAreLowProducts : Prop :=
  ∀ y : Word, (combTable y)[0] = 0 ∧ (combTable y)[1] = y ∧
    (∀ i : Fin 16, 2 ≤ i.val → i.val % 2 = 0 →
      (combTable y)[i.val] = (combTable y)[i.val / 2] <<< 1) ∧
    (∀ i : Fin 16, i.val % 2 = 1 → (combTable y)[i.val] = (combTable y)[i.val - 1] ^^^ y) ∧
    (∀ i : Fin 16, (combTable y)[i.val] = (clmul64 (BitVec.ofNat 64 i.val) y).low) ∧
    (∀ i : Fin 16, (combTable y)[i.val] =
      (if i.val.testBit 0 then y else 0) ^^^ (if i.val.testBit 1 then y <<< 1 else 0) ^^^
        (if i.val.testBit 2 then y <<< 2 else 0) ^^^ (if i.val.testBit 3 then y <<< 3 else 0))

/-- 40_clmul.md R49: "After pass p, bit j of c is X[j + p + 1] when the window offset of bit j + p + 1 is greater than
p, and 0 otherwise", and what the three passes add to `hi`: for each p the bits of that c where Y[63 − p] = 1. -/
def Obligations.CorrectionRestoresLostBits : Prop :=
  ∀ (x y hi : Word) (j : Nat), j < 64 →
    let c0 := correctionStep y 0 (x, hi)
    let c1 := correctionStep y 1 c0
    let c2 := correctionStep y 2 c1
    c0.1.getLsbD j = (decide (0 < (j + 1) % 4) && x.getLsbD (j + 1)) ∧
      c1.1.getLsbD j = (decide (1 < (j + 2) % 4) && x.getLsbD (j + 2)) ∧
      c2.1.getLsbD j = (decide (2 < (j + 3) % 4) && x.getLsbD (j + 3)) ∧
      (correction x y hi).getLsbD j = (hi.getLsbD j ^^ (c0.1.getLsbD j && y.getLsbD 63) ^^
        (c1.1.getLsbD j && y.getLsbD 62) ^^ (c2.1.getLsbD j && y.getLsbD 61))

/-- 40_clmul.md R50, first sentence: the reference datapath of R47 to R49 gives clmul64(X, Y) for every X and Y, also
when it is run on the table U that a completed command leaves behind (that U stands in the state after COMPLETE is the
model's choice, log 4). -/
def Obligations.DatapathComputesProduct : Prop :=
  (∀ x y : Word, datapath x y = clmul64 x y) ∧
    ∀ s : State, datapathFrom (complete s).u s.ifX s.ifY = (complete s).pHi ++ (complete s).pLo

/-! ### MULWACC -/

/-- 40_clmul.md R40: where MULWACC completes, and everything it leaves: the two target words, every other byte of Z,
P_LO and P_HI, and the frame. The latches, U and `remaining` after a command are as in log 3, log 4 and log 8. -/
def Obligations.MulwaccCompletes : Prop :=
  ∀ (zoff : BitVec 26) (x y : Word) (s : State), s.cmdReady = true → outOfRange s.cfg zoff = false →
    s.racesWith zoff = false → s.z.wf = true →
      ∃ t, exec (.mulwacc zoff x y) s = .next t ∧
        t.z.readWord (lowIndex zoff) = s.z.readWord (lowIndex zoff) ^^^ (clmul64 x y).low ∧
        t.z.readWord (highIndex zoff) = s.z.readWord (highIndex zoff) ^^^ (clmul64 x y).high ∧
        (∀ a, ¬ (8 * lowIndex zoff ≤ a ∧ a < 8 * highIndex zoff + 8) → t.z.readByte a = s.z.readByte a) ∧
        t.pLo = (clmul64 x y).low ∧ t.pHi = (clmul64 x y).high ∧ t.resultWritten = true ∧
        t.ifCmd = (encode (.mulwacc zoff x y)).cmd ∧ t.ifX = x ∧ t.ifY = y ∧ t.u = combTable y ∧ t.remaining = 0 ∧
        t.status = s.status ∧ t.faultCmd = s.faultCmd ∧ t.cfg = s.cfg ∧ t.pos = s.pos ∧ t.others = s.others ∧
        t.agenda = s.agenda ∧ t.reads = s.reads

/-- 20_memory.md R24 with the order of 40_clmul.md R40's pseudocode (log 18): a command that completes makes exactly
four accesses, whatever its product is, and a command that faults makes none. The record `bus` is the model's own
(log 16). The first clause is about the merged EXEC; `SplitAndMergedCommandAgree` carries it to the split events. -/
def Obligations.CompletedCommandMakesFourAccesses : Prop :=
  (∀ (zoff : BitVec 26) (x y : Word) (s : State), s.cmdReady = true → outOfRange s.cfg zoff = false →
    s.racesWith zoff = false →
      ∃ t lo hi, exec (.mulwacc zoff x y) s = .next t ∧ lo = s.z.readWord zoff.toNat ∧
        hi = s.z.readWord (zoff.toNat + 1) ∧
        t.bus = [⟨true, zoff + 1, hi ^^^ (clmul64 x y).high⟩, ⟨true, zoff, lo ^^^ (clmul64 x y).low⟩,
          ⟨false, zoff + 1, hi⟩, ⟨false, zoff, lo⟩] ++ s.bus ∧
        t.z = (s.z.writeWord zoff.toNat (lo ^^^ (clmul64 x y).low)).writeWord (zoff.toNat + 1)
          (hi ^^^ (clmul64 x y).high)) ∧
    (∀ (s u : State) (t : Transaction) (rest : List Event), step s = .next u →
      s.agenda = .exec t :: rest ∨ s.agenda = .issue t :: rest → s.fault = false → u.fault = true →
        u.z = s.z ∧ u.bus = s.bus)

/-- 20_memory.md R21: word ZOFF receives the low product word and word ZOFF+1 the high one, so a MULWACC adds
P · t^(64 · ZOFF) into the polynomial that Z holds. -/
def Obligations.MulwaccAddsShiftedPolynomial : Prop :=
  ∀ (zoff : BitVec 26) (x y : Word) (s t : State), s.z.wf = true → s.fault = false →
    exec (.mulwacc zoff x y) s = .next t → t.fault = false →
      (∀ i, i < 64 → zCoefficient t.z (64 * zoff.toNat + i) =
        (zCoefficient s.z (64 * zoff.toNat + i) ^^ (clmul64 x y).getLsbD i)) ∧
      (∀ i, i < 64 → zCoefficient t.z (64 * (zoff.toNat + 1) + i) =
        (zCoefficient s.z (64 * (zoff.toNat + 1) + i) ^^ (clmul64 x y).getLsbD (64 + i))) ∧
      ∀ n, zCoefficient t.z n = (zCoefficient s.z n ^^ productCoefficient (.mulwacc zoff x y) n)

/-- 20_memory.md R25: no read of Z has a side effect on Z; the same command twice leaves Z as it was, and once does
not where its product is not zero. -/
def Obligations.MulwaccTwiceRestoresZ : Prop :=
  (∀ (zoff : BitVec 26) (x y : Word) (s : State), s.cmdReady = true → outOfRange s.cfg zoff = false →
    s.racesWith zoff = false → s.z.wf = true →
      ∃ t u, exec (.mulwacc zoff x y) s = .next t ∧ exec (.mulwacc zoff x y) t = .next u ∧ u.z = s.z ∧
        (clmul64 x y ≠ 0 → t.z ≠ s.z)) ∧
    ∀ (j : Nat) (s t : State), clientReadZ j s = .next t → t.z = s.z

/-- 60_exceptions.md R53 and R55 for OFFSET_RANGE: where the offset is beyond EXT_WORDS − 2, MULWACC enters the fault
state and changes nothing else. -/
def Obligations.MulwaccOutOfRangeFaults : Prop :=
  ∀ (zoff : BitVec 26) (x y : Word) (s : State), s.cfg.legal = true → s.cmdReady = true →
    s.cfg.extWords - 2 < zoff.toNat →
      ∃ t, exec (.mulwacc zoff x y) s = .next t ∧ t.fault = true ∧ t.cause = 2 ∧ t.busy = false ∧
        t.cmdReady = false ∧ t.faultCmd = (encode (.mulwacc zoff x y)).cmd ∧
        (∀ i, i ≠ 0 → ¬ (4 ≤ i ∧ i < 8) → t.status.getLsbD i = s.status.getLsbD i) ∧
        t = { s with status := t.status, faultCmd := t.faultCmd }

/-- Where MULWACC does not run at all: offered to a busy or faulted block it is not accepted (60_exceptions.md R58);
with target words that overlap another instance's window it is RACE_Z (20_memory.md R28). -/
def Obligations.MulwaccBlockedOrRacing : Prop :=
  ∀ (zoff : BitVec 26) (x y : Word) (s : State),
    (s.busy = true ∨ s.fault = true → exec (.mulwacc zoff x y) s = .refused .issueWhileBlocked) ∧
      (s.cmdReady = true → outOfRange s.cfg zoff = false →
        (∃ o ∈ s.others, overlap zoff o.zoff = true) → exec (.mulwacc zoff x y) s = .fault .raceZ)

/-- 40_clmul.md R51: a sequence of commands leaves Z as the initial Z XORed with every product at its own offset; the
final Z does not depend on the order; P_LO and P_HI show the last product. Other instances may have commands in flight,
on disjoint words (20_memory.md R28). -/
def Obligations.CommandSequenceXorsProductsIntoZ : Prop :=
  ∀ (is : List Instr) (s : State), s.cfg.legal = true → s.cmdReady = true → s.z.wf = true →
    (∀ i ∈ is, inRange s.cfg i = true ∧ noRace s i = true) →
      ∃ t, run is.length { s with agenda := is.map fun i => .exec (encode i) } = .next t ∧
        (∀ n, zCoefficient t.z n = (zCoefficient s.z n ^^ totalCoefficient is n)) ∧
        (∀ i, is.getLast? = some i → t.pLo = (productOf i).low ∧ t.pHi = (productOf i).high) ∧
        ∀ (js : List Instr) (u : State), js.Perm is →
          run js.length { s with agenda := js.map fun i => .exec (encode i) } = .next u →
            u.z = t.z

/-! ### Steps -/

/-- When the block is ready and the command at the front of the agenda decodes to i, a step is exec of i (for the
split event, its ISSUE) after the stream has moved on by one (10_state.md R19, log 10); and this is so for a word
placed by withFetchWord (log 14). -/
def Obligations.StepRunsDecodedCommand : Prop :=
  (∀ (s : State) (t : Transaction) (i : Instr) (rest : List Event), s.cfg.legal = true → s.cmdReady = true →
    decode t = .ok i →
      (s.agenda = .exec t :: rest → step s = exec i { s with agenda := rest, pos := s.pos + 1 }) ∧
        (s.agenda = .issue t :: rest → step s = issueInstr i { s with agenda := rest, pos := s.pos + 1 })) ∧
    ∀ (s : State) (nbits w : Nat) (i : Instr), s.cfg.legal = true → s.cmdReady = true →
      decodeTableWord nbits w = some i → step (s.withFetchWord nbits w) = exec i { s with pos := s.pos + 1 }

/-- 60_exceptions.md R54 with the entry of R55: ILLEGAL_COMMAND is checked first, whatever bits 25:0 hold, then
OFFSET_RANGE; the step takes the command off the stream, enters the fault state with the whole command word recorded,
and changes nothing else. -/
def Obligations.IssueFaultsInPriorityOrder : Prop :=
  ∀ (s : State) (t : Transaction) (rest : List Event), s.cfg.legal = true → s.cmdReady = true →
    s.agenda = .exec t :: rest ∨ s.agenda = .issue t :: rest →
      isMulwacc t.cmd = false ∨ s.cfg.extWords - 2 < (zoffField t.cmd).toNat →
        ∃ u, step s = .next u ∧ u.fault = true ∧ u.busy = false ∧ u.cmdReady = false ∧
          u.cause = (if isMulwacc t.cmd = false then Cause.illegalCommand.code else Cause.offsetRange.code) ∧
          u.faultCmd = t.cmd ∧ (∀ i, i ≠ 0 → ¬ (4 ≤ i ∧ i < 8) → u.status.getLsbD i = s.status.getLsbD i) ∧
          u = { s with status := u.status, faultCmd := u.faultCmd, agenda := rest, pos := s.pos + 1 }

/-- 10_state.md R11: FAULT is set by the fault entry and by nothing else, only reset clears it, and while it is 1 the
block accepts no command. That the position (R19) counts a command that faults, and so tells whether one was accepted, is
the model's choice (log 10). -/
def Obligations.FaultBitSetByEntryClearedByReset : Prop :=
  ∀ s : State,
    (∀ t, step s = .next t → s.fault = false → t.fault = true →
      ∃ (c : Cause) (w : Transaction) (rest : List Event), c ≠ .none ∧ s.cmdReady = true ∧
        (s.agenda = .exec w :: rest ∨ s.agenda = .issue w :: rest) ∧ t = raise c w.cmd (accept rest s)) ∧
      (∀ t, step s = .next t → s.fault = true → t.fault = false → ∃ rest, s.agenda = .reset :: rest) ∧
      (s.fault = true → s.cmdReady = false ∧ ∀ t, step s = .next t → t.pos ≠ s.pos + 1)

/-- 10_state.md R13 with R15: over any run without a reset, the cause and the command word of the first fault stay,
and P_LO and P_HI with them (60_exceptions.md R56). -/
def Obligations.FirstFaultIsKeptUntilReset : Prop :=
  ∀ (n : Nat) (s t : State), s.fault = true → s.busy = false → Event.reset ∉ s.agenda →
    run n s = .next t →
      t.status = s.status ∧ t.faultCmd = s.faultCmd ∧ t.pLo = s.pLo ∧ t.pHi = s.pHi ∧
        t.resultWritten = s.resultWritten ∧ t.bus = s.bus ∧ t.pos = s.pos

/-- 60_exceptions.md R56: faults are precise. After commands that complete and one that faults, Z and the result
registers hold exactly the effect of the commands before it, and no command after it is accepted. -/
def Obligations.FaultsArePrecise : Prop :=
  ∀ (is : List Instr) (bad : Transaction) (rest : List Event) (s : State), s.cfg.legal = true → s.cmdReady = true →
    s.z.wf = true → (∀ i ∈ is, inRange s.cfg i = true ∧ noRace s i = true) →
    isMulwacc bad.cmd = false ∨ outOfRange s.cfg (zoffField bad.cmd) = true →
      ∃ t u, run is.length
          { s with agenda := is.map (fun i => .exec (encode i)) ++ .exec bad :: rest } = .next t ∧
        run (is.length + 1)
          { s with agenda := is.map (fun i => .exec (encode i)) ++ .exec bad :: rest } = .next u ∧
        (∀ n, zCoefficient u.z n = (zCoefficient s.z n ^^ totalCoefficient is n)) ∧
        u.z = t.z ∧ u.pLo = t.pLo ∧ u.pHi = t.pHi ∧ u.resultWritten = t.resultWritten ∧ t.busy = false ∧
        (∀ i, is.getLast? = some i → u.pLo = (productOf i).low ∧ u.pHi = (productOf i).high) ∧
        u.fault = true ∧ u.faultCmd = bad.cmd ∧
        (Event.reset ∉ rest → ∀ (n : Nat) (v : State), run n u = .next v → v.cmdReady = false)

/-- 70_reset_and_hazards.md R65 and R66: the state a reset leaves, from any state, and what it does not touch. That
P_LO and P_HI have no value is `resultWritten` = false (log 2). That the client's reads and the Z accesses stay on record,
that the other instances go on, and that the rest of the agenda stays are the model's choices (log 16, log 13, log 21). -/
def Obligations.ResetLeavesSpecState : Prop :=
  ∀ (s : State) (rest : List Event), s.cfg.legal = true → s.agenda = .reset :: rest →
    ∃ t, step s = .next t ∧ t.fault = false ∧ t.busy = false ∧ t.cause = 0 ∧ t.status = 0x00000000#32 ∧
      t.faultCmd = 0x00000000#32 ∧ t.resultWritten = false ∧ t.cmdReady = true ∧ t.pos = 0 ∧ t.z = s.z ∧
      t.bus = s.bus ∧ t.cfg = s.cfg ∧ t.others = s.others ∧ t.reads = s.reads ∧ t.agenda = rest

/-- 70_reset_and_hazards.md R67: a reset while a command is in flight abandons it: no Z access, no P_LO or P_HI write,
Z as before the command was issued, and the whole state is what a reset without that command gives. R67 says only that
the client cannot tell; that the latches and U, which it cannot see, agree too rests on log 3 and log 4, the count of
cycles on log 8, the record of the accesses on log 16. -/
def Obligations.ResetInFlightAbandonsCommand : Prop :=
  ∀ (s : State) (t : Transaction) (k : Nat) (rest : List Event), s.cfg.legal = true → s.cmdReady = true →
    isMulwacc t.cmd = true → outOfRange s.cfg (zoffField t.cmd) = false → s.racesWith (zoffField t.cmd) = false →
    k < s.cfg.latency → s.agenda = .issue t :: (List.replicate k .cycle ++ .reset :: rest) →
      (∃ u, run (k + 1) s = .next u ∧ u.busy = true) ∧
      ∃ u, run (k + 2) s = .next u ∧ u.z = s.z ∧ u.bus = s.bus ∧ u.busy = false ∧
        u.status = 0x00000000#32 ∧ u.resultWritten = false ∧ u.agenda = rest ∧
        step { s with agenda := .reset :: rest } = .next u

/-- 10_state.md R12 and R17: ISSUE latches the command and sets BUSY, and touches neither Z nor the result
registers. -/
def Obligations.IssueLatchesAndSetsBusy : Prop :=
  ∀ (s : State) (t : Transaction) (rest : List Event), s.cfg.legal = true → s.cmdReady = true →
    isMulwacc t.cmd = true → outOfRange s.cfg (zoffField t.cmd) = false → s.racesWith (zoffField t.cmd) = false →
    s.agenda = .issue t :: rest →
      ∃ u, step s = .next u ∧ u.busy = true ∧ (∀ i, i ≠ 1 → u.status.getLsbD i = s.status.getLsbD i) ∧
        u.ifCmd = t.cmd ∧ u.ifX = t.x ∧ u.ifY = t.y ∧ u.remaining = s.cfg.latency ∧
        u = { s with status := u.status, ifCmd := t.cmd, ifX := t.x, ifY := t.y, remaining := s.cfg.latency,
                     agenda := rest, pos := s.pos + 1 }

/-- 70_reset_and_hazards.md R70 and R72: an accepted command is in flight, with nothing of Z or the results changed,
for LATENCY cycles exactly, and then has completed, on the operands latched at ISSUE. -/
def Obligations.AcceptedCommandCompletesAfterLatency : Prop :=
  ∀ (s : State) (t : Transaction), s.cfg.legal = true → s.cmdReady = true → isMulwacc t.cmd = true →
    outOfRange s.cfg (zoffField t.cmd) = false → s.racesWith (zoffField t.cmd) = false → s.agenda = [.issue t] →
      (∀ k, 1 ≤ k → k ≤ s.cfg.latency →
        ∃ u, run k s = .next u ∧ u.busy = true ∧ u.z = s.z ∧ u.pLo = s.pLo ∧
          u.pHi = s.pHi ∧ u.resultWritten = s.resultWritten ∧ u.bus = s.bus) ∧
        ∃ u, run (s.cfg.latency + 1) s = .next u ∧ u.busy = false ∧ u.fault = false ∧
          u.z = accumulate s.z (zoffField t.cmd) (clmul64 t.x t.y) ∧ u.pLo = (clmul64 t.x t.y).low ∧
          u.pHi = (clmul64 t.x t.y).high ∧ u.resultWritten = true

/-- 70_reset_and_hazards.md R70: while BUSY = 1 an offered command, and a waiting client, wait; the command is not
lost, and after the cycles left of the window the block can accept it. -/
def Obligations.OfferedCommandWaitsForBusy : Prop :=
  ∀ (s : State) (e : Event) (rest : List Event), MachineInvariant s → s.busy = true → s.agenda = e :: rest →
    offersCommand [e] = true ∨ e = .wait →
      (∀ k, k < s.remaining → ∃ u, run k s = .next u ∧ u.busy = true ∧ u.agenda = s.agenda ∧
        u.pos = s.pos) ∧
      ∃ u, run s.remaining s = .next u ∧ u.cmdReady = true ∧ u.agenda = s.agenda ∧
        u.pos = s.pos

/-- 60_exceptions.md R58, ISSUE_WHILE_BLOCKED, and 70_reset_and_hazards.md R75: under FAULT = 1 a client that offers a
command is stuck (the model's form of it is log 11), which is no successful end; a run is at its end exactly when no
command is left to issue and the block is idle without a fault, whatever else the client and the world go on to do; it
stays at its end, and with nothing left at all in that state. -/
def Obligations.StuckIsNoSuccessfulEnd : Prop :=
  ∀ s : State, s.cfg.legal = true →
    (s.stuck = true → step s = .refused .issueWhileBlocked ∧ s.successfulEnd = false) ∧
      (s.fault = true → s.successfulEnd = false) ∧ (s.busy = true → s.successfulEnd = false) ∧
      (s.successfulEnd = true ↔ (∀ e ∈ s.agenda, ∀ t, e ≠ .exec t ∧ e ≠ .issue t) ∧ s.busy = false ∧ s.fault = false) ∧
      (s.successfulEnd = true → (∀ t, step s = .next t → t.successfulEnd = true) ∧
        (s.agenda = [] → step s = .next s))

/-- 70_reset_and_hazards.md R74: the merged step EXEC and the split events reach the same outcome, state for state,
where no other agent steps in the window. That ISSUE is a step of its own and cycles pass on an empty agenda is the
model's form (log 8), as is that `exec` is the merged step (log 9). -/
def Obligations.SplitAndMergedCommandAgree : Prop :=
  ∀ (s : State) (t : Transaction), s.cfg.legal = true → s.cmdReady = true →
    run (s.cfg.latency + 1) { s with agenda := [.issue t] } =
      step { s with agenda := [.exec t] }

/-- 70_reset_and_hazards.md R71 item 3 with R74: a client write to a word that is no target of the command in flight
gives the same state whether it falls in the window or after it. -/
def Obligations.ClientWriteInWindowCommutes : Prop :=
  ∀ (s : State) (t : Transaction) (j : Nat) (v : Word), s.cfg.legal = true → s.cmdReady = true → s.z.wf = true →
    isMulwacc t.cmd = true → outOfRange s.cfg (zoffField t.cmd) = false → s.racesWith (zoffField t.cmd) = false →
    j < s.cfg.extWords → s.racesAt j = false → targets (zoffField t.cmd) j = false →
      ∃ u, run (s.cfg.latency + 2) { s with agenda := [.issue t, .writeZ j v] } = .next u ∧
        run 2 { s with agenda := [.exec t, .writeZ j v] } = .next u

/-! ### The client and other instances -/

/-- 20_memory.md R27: in a window a client read or write of a target word is RACE_Z, and every other word of Z that no
window covers may be read and written. -/
def Obligations.ClientAccessInWindow : Prop :=
  ∀ (s : State) (j : Nat) (v : Word) (rest : List Event), s.cfg.legal = true → s.busy = true → j < s.cfg.extWords →
    (targets s.ifZoff j = true →
      (s.agenda = .readZ j :: rest → step s = .fault .raceZ) ∧
        (s.agenda = .writeZ j v :: rest → step s = .fault .raceZ)) ∧
      (targets s.ifZoff j = false → (∀ o ∈ s.others, targets o.zoff j = false) →
        (s.agenda = .readZ j :: rest → ∃ t, step s = .next t ∧ t.busy = true) ∧
          (s.agenda = .writeZ j v :: rest → ∃ t, step s = .next t ∧ t.busy = true ∧ t.status = s.status))

/-- What the client's accesses to Z do outside the target words in flight (20_memory.md §4, R25, R26): a read returns
the word and changes nothing else, a write changes that word and nothing else; an index outside Z stops (log 7). -/
def Obligations.ClientReadsAndWritesWordsOfZ : Prop :=
  ∀ (s : State) (j : Nat) (v : Word) (rest : List Event), s.cfg.legal = true → s.racesAt j = false → s.z.wf = true →
    (j < s.cfg.extWords → s.agenda = .readZ j :: rest →
      step s = .next { s with agenda := rest, reads := .zWord j (s.z.readWord j) :: s.reads }) ∧
      (j < s.cfg.extWords → s.agenda = .writeZ j v :: rest →
        ∃ t, step s = .next t ∧ t.z.readWord j = v ∧ (∀ a, a / 8 ≠ j → t.z.readByte a = s.z.readByte a) ∧
          t = { s with agenda := rest, z := t.z }) ∧
      (s.cfg.extWords ≤ j → s.agenda = .readZ j :: rest ∨ s.agenda = .writeZ j v :: rest →
        step s = .fault .noSuchWord)

/-- 10_state.md R9 and 60_exceptions.md R58: a read of P_LO or P_HI before the first COMPLETE since reset is
UNWRITTEN_RESULT; after it, also in a window (70_reset_and_hazards.md R71 item 2), it returns the register. STATUS and
FAULT_CMD are read at any time (30_encoding.md R39). -/
def Obligations.ClientReadsRegisters : Prop :=
  ∀ (s : State) (rest : List Event), s.cfg.legal = true →
    (s.resultWritten = false → s.agenda = .readPLo :: rest ∨ s.agenda = .readPHi :: rest →
      step s = .fault .unwrittenResult) ∧
      (s.resultWritten = true → s.agenda = .readPLo :: rest →
        step s = .next { s with agenda := rest, reads := .pLo s.pLo :: s.reads }) ∧
      (s.resultWritten = true → s.agenda = .readPHi :: rest →
        step s = .next { s with agenda := rest, reads := .pHi s.pHi :: s.reads }) ∧
      (s.agenda = .readStatus :: rest →
        step s = .next { s with agenda := rest, reads := .status s.status :: s.reads }) ∧
      (s.agenda = .readFaultCmd :: rest →
        step s = .next { s with agenda := rest, reads := .faultCmd s.faultCmd :: s.reads })

/-- 20_memory.md R28: two commands in flight at once on different instances are RACE_Z where their target words
overlap, whichever was issued second, and run side by side where they do not. -/
def Obligations.OverlappingInstancesRace : Prop :=
  ∀ (s : State) (t : Transaction) (rest : List Event), s.cfg.legal = true → isMulwacc t.cmd = true →
    outOfRange s.cfg (zoffField t.cmd) = false →
      (s.agenda = .otherIssue t :: rest → s.racesWith (zoffField t.cmd) = true → step s = .fault .raceZ) ∧
        (s.agenda = .otherIssue t :: rest → s.racesWith (zoffField t.cmd) = false →
          step s = .next { s with agenda := rest, others := s.others ++ [⟨zoffField t.cmd, t.x, t.y⟩] }) ∧
        (s.cmdReady = true → s.agenda = .issue t :: rest ∨ s.agenda = .exec t :: rest →
          ((∃ o ∈ s.others, overlap (zoffField t.cmd) o.zoff = true) → step s = .fault .raceZ) ∧
            ((∀ o ∈ s.others, overlap (zoffField t.cmd) o.zoff = false) → ∃ u, step s = .next u ∧ u.fault = false))

/-- 60_exceptions.md R64 with 20_memory.md R28: another instance's command accumulates into Z as this block's would,
and the two share nothing but Z (the other's own registers are outside the model, log 13). -/
def Obligations.OtherInstanceSharesOnlyZ : Prop :=
  ∀ (s : State) (k : Nat) (o : OtherCommand) (rest : List Event), s.cfg.legal = true → s.z.wf = true →
    s.others[k]? = some o → s.agenda = .otherComplete k :: rest →
      ∃ t, step s = .next t ∧
        (∀ n, zCoefficient t.z n = (zCoefficient s.z n ^^ productCoefficient (.mulwacc o.zoff o.x o.y) n)) ∧
        t = { s with agenda := rest, z := t.z, others := s.others.eraseIdx k }

/-! ### Whole-machine rules -/

/-- Reset and a launch meet the invariant (10_state.md R10 to R15, 20_memory.md R20). -/
def Obligations.LaunchMeetsInvariant : Prop :=
  MachineInvariant State.reset ∧ ∀ (r latency : Nat) (z : Memory) (agenda : List Event) (s : State),
    build r latency z agenda = .ok s → MachineInvariant s

/-- Every step keeps the invariant: STATUS and FAULT_CMD are legal and agree (10_state.md R10 to R15), the command in
flight is in range with 1 to LATENCY cycles left (70_reset_and_hazards.md R70), the windows are words of Z and disjoint
(20_memory.md R27, R28), Z stays canonical within EXT_WORDS words, and P and U are those of the last completed
command (10_state.md R9, R18). -/
def Obligations.StepKeepsInvariant : Prop :=
  ∀ s t : State, MachineInvariant s → step s = .next t → MachineInvariant t

/-- 10_state.md R10 to R14: in a state that meets the invariant STATUS reads one of four words (the words of
95_test_vectors.md L2.2). -/
def Obligations.StatusReadsOneOfFourWords : Prop :=
  ∀ s : State, MachineInvariant s →
    s.status = 0x00000000#32 ∨ s.status = 0x00000002#32 ∨ s.status = 0x00000011#32 ∨ s.status = 0x00000021#32

/-- 10_state.md R8 and R16: nothing writes the configuration. -/
def Obligations.NoStepWritesConfiguration : Prop :=
  ∀ (n : Nat) (s t : State), run n s = .next t → t.cfg = s.cfg

/-- 10_state.md R9: P_LO and P_HI keep their values until a COMPLETE, which writes the product of the latched
operands, or a reset. The product is read from IF_X and IF_Y after the COMPLETE, which keep their values there by the
model's choice (log 3). -/
def Obligations.ResultsChangeOnlyAtCompleteOrReset : Prop :=
  ∀ s t : State, step s = .next t →
    (t.pLo = s.pLo ∧ t.pHi = s.pHi ∧ t.resultWritten = s.resultWritten) ∨
      ((s.busy = true ∨ ∃ w rest, s.agenda = .exec w :: rest) ∧ t.busy = false ∧ t.resultWritten = true ∧
        t.pLo = (clmul64 t.ifX t.ifY).low ∧ t.pHi = (clmul64 t.ifX t.ifY).high) ∨
      ∃ rest, s.agenda = .reset :: rest ∧ t.resultWritten = false

/-- 20_memory.md R20: a word of Z changes only as a target of a completing command, of this block or of another
instance, or by the client's write to that very word; a reset is none of these (70_reset_and_hazards.md R66). -/
def Obligations.ZChangesOnlyAtItsWriters : Prop :=
  ∀ (s t : State) (j : Nat), s.z.wf = true → step s = .next t → t.z.readWord j ≠ s.z.readWord j →
    (s.busy = true ∧ (∀ rest, s.agenda ≠ .reset :: rest) ∧ t.busy = false ∧ t.resultWritten = true ∧
        targets s.ifZoff j = true) ∨
      (∃ w rest, s.agenda = .exec w :: rest ∧ s.cmdReady = true ∧ isMulwacc w.cmd = true ∧
        outOfRange s.cfg (zoffField w.cmd) = false ∧ targets (zoffField w.cmd) j = true) ∨
      (∃ v rest, s.agenda = .writeZ j v :: rest ∧ s.racesAt j = false ∧ t.z.readWord j = v) ∨
      ∃ k rest o, s.agenda = .otherComplete k :: rest ∧ s.others[k]? = some o ∧ targets o.zoff j = true

/-- 10_state.md R19: the position advances by one at each accepted command, also at one that faults at its ISSUE
(log 10), returns to 0 at reset, the stream going on with what is left of it (log 21), and otherwise stays. -/
def Obligations.PositionCountsAcceptedCommands : Prop :=
  ∀ s t : State, step s = .next t →
    (∀ w rest, s.agenda = .exec w :: rest ∨ s.agenda = .issue w :: rest → s.cmdReady = true →
        t.agenda = rest ∧ t.pos = s.pos + 1) ∧
      (∀ rest, s.agenda = .reset :: rest → t.pos = 0) ∧
      (s.cmdReady = false ∨ offersCommand s.agenda = false → (∀ rest, s.agenda ≠ .reset :: rest) → t.pos = s.pos)

/-- 40_clmul.md R44: what an observer of time, STATUS and the block's accesses to Z sees, step for step over a whole
run, does not depend on any operand, on any word of Z or on any product: two states that look alike go on alike. -/
def Obligations.RunsDoNotDependOnSecrets : Prop :=
  ∀ (n : Nat) (s t : State), s.publicView = t.publicView →
    publicOutcome (run n s) = publicOutcome (run n t)

/-! ### The configuration -/

/-- 00_scope.md R3: EXT_WORDS = 2⌈r/64⌉, even, from 2 to 2^26, with the worked values; and every legal EXT_WORDS given
directly is that of a configuration. -/
def Obligations.LengthOfZFollowsFromR : Prop :=
  (∀ c : Config, c.legal = true → c.extWords % 2 = 0 ∧ 2 ≤ c.extWords ∧ c.extWords ≤ 2 ^ 26 ∧
      c.r ≤ 64 * (c.extWords / 2) ∧ 64 * (c.extWords / 2 - 1) < c.r) ∧
    (∀ latency, Config.extWords ⟨13, latency⟩ = 2 ∧ Config.extWords ⟨65, latency⟩ = 4 ∧
      Config.extWords ⟨127, latency⟩ = 4 ∧ Config.extWords ⟨2 ^ 31 - 1, latency⟩ = 2 ^ 26) ∧
    ∀ n latency, 0 < latency →
      (n % 2 = 0 ∧ 2 ≤ n ∧ n ≤ 2 ^ 26 ↔ ∃ c, Config.ofExtWords n latency = some c) ∧
        ∀ c, Config.ofExtWords n latency = some c → c.extWords = n ∧ c.legal = true

/-- 60_exceptions.md R59: r is legal exactly when it is odd, positive and below 2^31, which is the source's test on a
32-bit word; for any other r no machine is built and none steps; r = 4 and r = 0 fail and r = 13 succeeds. -/
def Obligations.IllegalParameterBuildsNoMachine : Prop :=
  (∀ r latency, 0 < latency →
      ((∃ c, Config.ofR r latency = some c) ↔ r % 2 = 1 ∧ 0 < r ∧ r < 2 ^ 31)) ∧
    (∀ r : BitVec 32, ringLegalWord r = true ↔ r.toNat % 2 = 1 ∧ 0 < r.toNat ∧ r.toNat < 2 ^ 31) ∧
    (∀ (r latency : Nat) (z : Memory) (agenda : List Event), ringLegal r = false →
      build r latency z agenda = .error .invalidParameter) ∧
    (∀ s : State, ringLegal s.cfg.r = false → step s = .refused .invalidParameter) ∧
    build 4 1 [] [] = .error .invalidParameter ∧ build 0 1 [] [] = .error .invalidParameter ∧
    (∃ s, build 13 1 [] [] = .ok s) ∧
    ∀ n latency, n % 2 = 1 ∨ n < 2 ∨ 2 ^ 26 < n → Config.ofExtWords n latency = none
end

