-- ==== Sys2Proof/Laws/Decode.lean ====
section
/-! SUPPORT. The small lemmas of the command format (30_encoding.md R33, R36). -/

namespace Sys2Proof

@[simp] theorem encode_x (zoff : BitVec 26) (x y : Word) : (encode (.mulwacc zoff x y)).x = x := rfl
@[simp] theorem encode_y (zoff : BitVec 26) (x y : Word) : (encode (.mulwacc zoff x y)).y = y := rfl
@[simp] theorem encode_cmd (zoff : BitVec 26) (x y : Word) : (encode (.mulwacc zoff x y)).cmd = mulwaccWord zoff := rfl

theorem mulwaccWord_bit (zoff : BitVec 26) (i : Nat) : (mulwaccWord zoff).getLsbD i =
    if i < 26 then zoff.getLsbD i else decide (i = 28) := by
  unfold mulwaccWord
  rw [BitVec.getLsbD_append, BitVec.getLsbD_append]
  by_cases h : i < 26
  · simp [h]
  · by_cases h2 : i < 32
    · simp only [h, if_false]
      interval_cases i <;> simp_all
    · have h3 : ¬ i - 26 < 2 := by omega
      have h4 : i ≠ 28 := by omega
      simp [h, h3, h4]
      omega

@[simp] theorem zoffField_mulwaccWord (zoff : BitVec 26) : zoffField (mulwaccWord zoff) = zoff := by
  apply BitVec.eq_of_getLsbD_eq
  intro i hi
  unfold zoffField
  rw [BitVec.getLsbD_extractLsb', mulwaccWord_bit]
  simp [hi]

/-- A command word is MULWACC when its bits 31 to 26 are 0001 00 (30_encoding.md R36). -/
theorem isMulwacc_iff (cmd : BitVec 32) :
    isMulwacc cmd = true ↔ ∀ i, 26 ≤ i → i < 32 → cmd.getLsbD i = decide (i = 28) := by
  have hm : ∀ i, i < 32 → (0xFC000000#32).getLsbD i = decide (26 ≤ i) := by decide
  have hp : ∀ i, i < 32 → (0x10000000#32).getLsbD i = decide (i = 28) := by decide
  unfold isMulwacc
  rw [beq_iff_eq]
  constructor
  · intro h i h1 h2
    have := congrArg (fun v => v.getLsbD i) h
    simpa [BitVec.getLsbD_and, hm i h2, hp i h2, h1] using this
  · intro h
    apply BitVec.eq_of_getLsbD_eq
    intro i hi
    rw [BitVec.getLsbD_and, hm i hi, hp i hi]
    by_cases h1 : 26 ≤ i
    · simp [h i h1 hi, h1]
    · have : i ≠ 28 := by omega
      simp [h1, this]

@[simp] theorem isMulwacc_mulwaccWord (zoff : BitVec 26) : isMulwacc (mulwaccWord zoff) = true := by
  rw [isMulwacc_iff]
  intro i h1 _
  rw [mulwaccWord_bit, if_neg (by omega)]

/-- A MULWACC word is the word of its own offset. -/
theorem mulwaccWord_zoffField (cmd : BitVec 32) (h : isMulwacc cmd = true) : mulwaccWord (zoffField cmd) = cmd := by
  rw [isMulwacc_iff] at h
  apply BitVec.eq_of_getLsbD_eq
  intro i hi
  rw [mulwaccWord_bit]
  by_cases h1 : i < 26
  · rw [if_pos h1]; unfold zoffField; rw [BitVec.getLsbD_extractLsb']; simp [h1]
  · rw [if_neg h1, h i (by omega) hi]

/-- What the decoder answers, on the one test that the spec makes (30_encoding.md R36). -/
theorem decode_mulwacc (t : Transaction) (h : isMulwacc t.cmd = true) :
    decode t = .ok (.mulwacc (zoffField t.cmd) t.x t.y) := by
  unfold decode; rw [if_pos h]

/-- A transaction that is no MULWACC decodes to nothing. -/
theorem decode_illegal (t : Transaction) (h : isMulwacc t.cmd = false) : ∃ e, decode t = .error e := by
  unfold decode
  rw [if_neg (by simp [h])]
  split
  · exact ⟨_, rfl⟩
  · exact ⟨_, rfl⟩

/-- Decoding answers an instruction only for the transaction that it encodes to. -/
theorem encode_of_decode (t : Transaction) (i : Instr) (h : decode t = .ok i) : encode i = t := by
  by_cases hm : isMulwacc t.cmd = true
  · rw [decode_mulwacc t hm] at h
    obtain rfl := Except.ok.inj h
    simp only [encode, mulwaccWord_zoffField _ hm]
  · obtain ⟨e, he⟩ := decode_illegal t (by simpa using hm)
    rw [he] at h
    cases h

/-- Only the command word decides whether a transaction is a command (40_clmul.md R44). -/
theorem decode_error_iff (t : Transaction) : (∃ e, decode t = .error e) ↔ isMulwacc t.cmd = false := by
  constructor
  · rintro ⟨e, he⟩
    by_contra hm
    rw [decode_mulwacc t (by simpa using hm)] at he
    cases he
  · exact decode_illegal t

end Sys2Proof
end

