-- ==== Sys2Proof/Laws/State.lean ====
section
/-! SUPPORT. Every field after every update of State, so that no later proof unfolds a record update. -/

namespace Sys2Proof.Machine

/-! ### raise (60_exceptions.md R55) -/

@[simp] theorem raise_cfg (c : Cause) (cmd : BitVec 32) (s : State) : (raise c cmd s).cfg = s.cfg := rfl
@[simp] theorem raise_z (c : Cause) (cmd : BitVec 32) (s : State) : (raise c cmd s).z = s.z := rfl
@[simp] theorem raise_pLo (c : Cause) (cmd : BitVec 32) (s : State) : (raise c cmd s).pLo = s.pLo := rfl
@[simp] theorem raise_pHi (c : Cause) (cmd : BitVec 32) (s : State) : (raise c cmd s).pHi = s.pHi := rfl
@[simp] theorem raise_resultWritten (c : Cause) (cmd : BitVec 32) (s : State) : (raise c cmd s).resultWritten = s.resultWritten := rfl
@[simp] theorem raise_status (c : Cause) (cmd : BitVec 32) (s : State) : (raise c cmd s).status = setFault c s.status := rfl
@[simp] theorem raise_faultCmd (c : Cause) (cmd : BitVec 32) (s : State) : (raise c cmd s).faultCmd = cmd := rfl
@[simp] theorem raise_ifCmd (c : Cause) (cmd : BitVec 32) (s : State) : (raise c cmd s).ifCmd = s.ifCmd := rfl
@[simp] theorem raise_ifX (c : Cause) (cmd : BitVec 32) (s : State) : (raise c cmd s).ifX = s.ifX := rfl
@[simp] theorem raise_ifY (c : Cause) (cmd : BitVec 32) (s : State) : (raise c cmd s).ifY = s.ifY := rfl
@[simp] theorem raise_u (c : Cause) (cmd : BitVec 32) (s : State) : (raise c cmd s).u = s.u := rfl
@[simp] theorem raise_remaining (c : Cause) (cmd : BitVec 32) (s : State) : (raise c cmd s).remaining = s.remaining := rfl
@[simp] theorem raise_pos (c : Cause) (cmd : BitVec 32) (s : State) : (raise c cmd s).pos = s.pos := rfl
@[simp] theorem raise_others (c : Cause) (cmd : BitVec 32) (s : State) : (raise c cmd s).others = s.others := rfl
@[simp] theorem raise_agenda (c : Cause) (cmd : BitVec 32) (s : State) : (raise c cmd s).agenda = s.agenda := rfl
@[simp] theorem raise_reads (c : Cause) (cmd : BitVec 32) (s : State) : (raise c cmd s).reads = s.reads := rfl
@[simp] theorem raise_bus (c : Cause) (cmd : BitVec 32) (s : State) : (raise c cmd s).bus = s.bus := rfl

/-! ### resetBlock (70_reset_and_hazards.md R65) -/

@[simp] theorem resetBlock_cfg (s : State) : (resetBlock s).cfg = s.cfg := rfl
@[simp] theorem resetBlock_z (s : State) : (resetBlock s).z = s.z := rfl
@[simp] theorem resetBlock_pLo (s : State) : (resetBlock s).pLo = 0 := rfl
@[simp] theorem resetBlock_pHi (s : State) : (resetBlock s).pHi = 0 := rfl
@[simp] theorem resetBlock_resultWritten (s : State) : (resetBlock s).resultWritten = false := rfl
@[simp] theorem resetBlock_status (s : State) : (resetBlock s).status = 0#32 := rfl
@[simp] theorem resetBlock_faultCmd (s : State) : (resetBlock s).faultCmd = 0#32 := rfl
@[simp] theorem resetBlock_ifCmd (s : State) : (resetBlock s).ifCmd = 0 := rfl
@[simp] theorem resetBlock_ifX (s : State) : (resetBlock s).ifX = 0 := rfl
@[simp] theorem resetBlock_ifY (s : State) : (resetBlock s).ifY = 0 := rfl
@[simp] theorem resetBlock_u (s : State) : (resetBlock s).u = tableAtReset := rfl
@[simp] theorem resetBlock_remaining (s : State) : (resetBlock s).remaining = 0 := rfl
@[simp] theorem resetBlock_pos (s : State) : (resetBlock s).pos = 0 := rfl
@[simp] theorem resetBlock_others (s : State) : (resetBlock s).others = s.others := rfl
@[simp] theorem resetBlock_agenda (s : State) : (resetBlock s).agenda = s.agenda := rfl
@[simp] theorem resetBlock_reads (s : State) : (resetBlock s).reads = s.reads := rfl
@[simp] theorem resetBlock_bus (s : State) : (resetBlock s).bus = s.bus := rfl

/-! ### latch (40_clmul.md R40, ISSUE) -/

@[simp] theorem latch_cfg (t : Transaction) (s : State) : (latch t s).cfg = s.cfg := rfl
@[simp] theorem latch_z (t : Transaction) (s : State) : (latch t s).z = s.z := rfl
@[simp] theorem latch_pLo (t : Transaction) (s : State) : (latch t s).pLo = s.pLo := rfl
@[simp] theorem latch_pHi (t : Transaction) (s : State) : (latch t s).pHi = s.pHi := rfl
@[simp] theorem latch_resultWritten (t : Transaction) (s : State) : (latch t s).resultWritten = s.resultWritten := rfl
@[simp] theorem latch_status (t : Transaction) (s : State) : (latch t s).status = setBusy s.status := rfl
@[simp] theorem latch_faultCmd (t : Transaction) (s : State) : (latch t s).faultCmd = s.faultCmd := rfl
@[simp] theorem latch_ifCmd (t : Transaction) (s : State) : (latch t s).ifCmd = t.cmd := rfl
@[simp] theorem latch_ifX (t : Transaction) (s : State) : (latch t s).ifX = t.x := rfl
@[simp] theorem latch_ifY (t : Transaction) (s : State) : (latch t s).ifY = t.y := rfl
@[simp] theorem latch_u (t : Transaction) (s : State) : (latch t s).u = s.u := rfl
@[simp] theorem latch_remaining (t : Transaction) (s : State) : (latch t s).remaining = s.cfg.latency := rfl
@[simp] theorem latch_pos (t : Transaction) (s : State) : (latch t s).pos = s.pos := rfl
@[simp] theorem latch_others (t : Transaction) (s : State) : (latch t s).others = s.others := rfl
@[simp] theorem latch_agenda (t : Transaction) (s : State) : (latch t s).agenda = s.agenda := rfl
@[simp] theorem latch_reads (t : Transaction) (s : State) : (latch t s).reads = s.reads := rfl
@[simp] theorem latch_bus (t : Transaction) (s : State) : (latch t s).bus = s.bus := rfl

/-! ### complete (40_clmul.md R40, COMPLETE) -/

@[simp] theorem complete_cfg (s : State) : (complete s).cfg = s.cfg := by
  simp only [complete]
@[simp] theorem complete_z (s : State) : (complete s).z = accumulate s.z s.ifZoff (clmul64 s.ifX s.ifY) := by
  simp only [complete]
@[simp] theorem complete_pLo (s : State) : (complete s).pLo = (clmul64 s.ifX s.ifY).low := by
  simp only [complete]
@[simp] theorem complete_pHi (s : State) : (complete s).pHi = (clmul64 s.ifX s.ifY).high := by
  simp only [complete]
@[simp] theorem complete_resultWritten (s : State) : (complete s).resultWritten = true := by
  simp only [complete]
@[simp] theorem complete_status (s : State) : (complete s).status = clearBusy s.status := by
  simp only [complete]
@[simp] theorem complete_faultCmd (s : State) : (complete s).faultCmd = s.faultCmd := by
  simp only [complete]
@[simp] theorem complete_ifCmd (s : State) : (complete s).ifCmd = s.ifCmd := by
  simp only [complete]
@[simp] theorem complete_ifX (s : State) : (complete s).ifX = s.ifX := by
  simp only [complete]
@[simp] theorem complete_ifY (s : State) : (complete s).ifY = s.ifY := by
  simp only [complete]
@[simp] theorem complete_u (s : State) : (complete s).u = combTable s.ifY := by
  simp only [complete]
@[simp] theorem complete_remaining (s : State) : (complete s).remaining = 0 := by
  simp only [complete]
@[simp] theorem complete_pos (s : State) : (complete s).pos = s.pos := by
  simp only [complete]
@[simp] theorem complete_others (s : State) : (complete s).others = s.others := by
  simp only [complete]
@[simp] theorem complete_agenda (s : State) : (complete s).agenda = s.agenda := by
  simp only [complete]
@[simp] theorem complete_reads (s : State) : (complete s).reads = s.reads := by
  simp only [complete]
@[simp] theorem complete_bus (s : State) : (complete s).bus = accesses s.z s.ifZoff (clmul64 s.ifX s.ifY) ++ s.bus := by
  simp only [complete]

/-! ### observe -/

@[simp] theorem observe_cfg (o : Observation) (s : State) : (observe o s).cfg = s.cfg := rfl
@[simp] theorem observe_z (o : Observation) (s : State) : (observe o s).z = s.z := rfl
@[simp] theorem observe_pLo (o : Observation) (s : State) : (observe o s).pLo = s.pLo := rfl
@[simp] theorem observe_pHi (o : Observation) (s : State) : (observe o s).pHi = s.pHi := rfl
@[simp] theorem observe_resultWritten (o : Observation) (s : State) : (observe o s).resultWritten = s.resultWritten := rfl
@[simp] theorem observe_status (o : Observation) (s : State) : (observe o s).status = s.status := rfl
@[simp] theorem observe_faultCmd (o : Observation) (s : State) : (observe o s).faultCmd = s.faultCmd := rfl
@[simp] theorem observe_ifCmd (o : Observation) (s : State) : (observe o s).ifCmd = s.ifCmd := rfl
@[simp] theorem observe_ifX (o : Observation) (s : State) : (observe o s).ifX = s.ifX := rfl
@[simp] theorem observe_ifY (o : Observation) (s : State) : (observe o s).ifY = s.ifY := rfl
@[simp] theorem observe_u (o : Observation) (s : State) : (observe o s).u = s.u := rfl
@[simp] theorem observe_remaining (o : Observation) (s : State) : (observe o s).remaining = s.remaining := rfl
@[simp] theorem observe_pos (o : Observation) (s : State) : (observe o s).pos = s.pos := rfl
@[simp] theorem observe_others (o : Observation) (s : State) : (observe o s).others = s.others := rfl
@[simp] theorem observe_agenda (o : Observation) (s : State) : (observe o s).agenda = s.agenda := rfl
@[simp] theorem observe_reads (o : Observation) (s : State) : (observe o s).reads = o :: s.reads := rfl
@[simp] theorem observe_bus (o : Observation) (s : State) : (observe o s).bus = s.bus := rfl

/-! ### accept (10_state.md R19) -/

@[simp] theorem accept_cfg (rest : List Event) (s : State) : (accept rest s).cfg = s.cfg := rfl
@[simp] theorem accept_z (rest : List Event) (s : State) : (accept rest s).z = s.z := rfl
@[simp] theorem accept_pLo (rest : List Event) (s : State) : (accept rest s).pLo = s.pLo := rfl
@[simp] theorem accept_pHi (rest : List Event) (s : State) : (accept rest s).pHi = s.pHi := rfl
@[simp] theorem accept_resultWritten (rest : List Event) (s : State) : (accept rest s).resultWritten = s.resultWritten := rfl
@[simp] theorem accept_status (rest : List Event) (s : State) : (accept rest s).status = s.status := rfl
@[simp] theorem accept_faultCmd (rest : List Event) (s : State) : (accept rest s).faultCmd = s.faultCmd := rfl
@[simp] theorem accept_ifCmd (rest : List Event) (s : State) : (accept rest s).ifCmd = s.ifCmd := rfl
@[simp] theorem accept_ifX (rest : List Event) (s : State) : (accept rest s).ifX = s.ifX := rfl
@[simp] theorem accept_ifY (rest : List Event) (s : State) : (accept rest s).ifY = s.ifY := rfl
@[simp] theorem accept_u (rest : List Event) (s : State) : (accept rest s).u = s.u := rfl
@[simp] theorem accept_remaining (rest : List Event) (s : State) : (accept rest s).remaining = s.remaining := rfl
@[simp] theorem accept_pos (rest : List Event) (s : State) : (accept rest s).pos = s.pos + 1 := rfl
@[simp] theorem accept_others (rest : List Event) (s : State) : (accept rest s).others = s.others := rfl
@[simp] theorem accept_agenda (rest : List Event) (s : State) : (accept rest s).agenda = rest := rfl
@[simp] theorem accept_reads (rest : List Event) (s : State) : (accept rest s).reads = s.reads := rfl
@[simp] theorem accept_bus (rest : List Event) (s : State) : (accept rest s).bus = s.bus := rfl

/-! ### proceed -/

@[simp] theorem proceed_cfg (rest : List Event) (s : State) : (proceed rest s).cfg = s.cfg := rfl
@[simp] theorem proceed_z (rest : List Event) (s : State) : (proceed rest s).z = s.z := rfl
@[simp] theorem proceed_pLo (rest : List Event) (s : State) : (proceed rest s).pLo = s.pLo := rfl
@[simp] theorem proceed_pHi (rest : List Event) (s : State) : (proceed rest s).pHi = s.pHi := rfl
@[simp] theorem proceed_resultWritten (rest : List Event) (s : State) : (proceed rest s).resultWritten = s.resultWritten := rfl
@[simp] theorem proceed_status (rest : List Event) (s : State) : (proceed rest s).status = s.status := rfl
@[simp] theorem proceed_faultCmd (rest : List Event) (s : State) : (proceed rest s).faultCmd = s.faultCmd := rfl
@[simp] theorem proceed_ifCmd (rest : List Event) (s : State) : (proceed rest s).ifCmd = s.ifCmd := rfl
@[simp] theorem proceed_ifX (rest : List Event) (s : State) : (proceed rest s).ifX = s.ifX := rfl
@[simp] theorem proceed_ifY (rest : List Event) (s : State) : (proceed rest s).ifY = s.ifY := rfl
@[simp] theorem proceed_u (rest : List Event) (s : State) : (proceed rest s).u = s.u := rfl
@[simp] theorem proceed_remaining (rest : List Event) (s : State) : (proceed rest s).remaining = s.remaining := rfl
@[simp] theorem proceed_pos (rest : List Event) (s : State) : (proceed rest s).pos = s.pos := rfl
@[simp] theorem proceed_others (rest : List Event) (s : State) : (proceed rest s).others = s.others := rfl
@[simp] theorem proceed_agenda (rest : List Event) (s : State) : (proceed rest s).agenda = rest := rfl
@[simp] theorem proceed_reads (rest : List Event) (s : State) : (proceed rest s).reads = s.reads := rfl
@[simp] theorem proceed_bus (rest : List Event) (s : State) : (proceed rest s).bus = s.bus := rfl

/-! ### shorten (70_reset_and_hazards.md R70) -/

@[simp] theorem shorten_cfg (s : State) : (shorten s).cfg = s.cfg := rfl
@[simp] theorem shorten_z (s : State) : (shorten s).z = s.z := rfl
@[simp] theorem shorten_pLo (s : State) : (shorten s).pLo = s.pLo := rfl
@[simp] theorem shorten_pHi (s : State) : (shorten s).pHi = s.pHi := rfl
@[simp] theorem shorten_resultWritten (s : State) : (shorten s).resultWritten = s.resultWritten := rfl
@[simp] theorem shorten_status (s : State) : (shorten s).status = s.status := rfl
@[simp] theorem shorten_faultCmd (s : State) : (shorten s).faultCmd = s.faultCmd := rfl
@[simp] theorem shorten_ifCmd (s : State) : (shorten s).ifCmd = s.ifCmd := rfl
@[simp] theorem shorten_ifX (s : State) : (shorten s).ifX = s.ifX := rfl
@[simp] theorem shorten_ifY (s : State) : (shorten s).ifY = s.ifY := rfl
@[simp] theorem shorten_u (s : State) : (shorten s).u = s.u := rfl
@[simp] theorem shorten_remaining (s : State) : (shorten s).remaining = s.remaining - 1 := rfl
@[simp] theorem shorten_pos (s : State) : (shorten s).pos = s.pos := rfl
@[simp] theorem shorten_others (s : State) : (shorten s).others = s.others := rfl
@[simp] theorem shorten_agenda (s : State) : (shorten s).agenda = s.agenda := rfl
@[simp] theorem shorten_reads (s : State) : (shorten s).reads = s.reads := rfl
@[simp] theorem shorten_bus (s : State) : (shorten s).bus = s.bus := rfl

/-! ### putZ -/

@[simp] theorem putZ_cfg (z : Memory) (s : State) : (putZ z s).cfg = s.cfg := rfl
@[simp] theorem putZ_z (z : Memory) (s : State) : (putZ z s).z = z := rfl
@[simp] theorem putZ_pLo (z : Memory) (s : State) : (putZ z s).pLo = s.pLo := rfl
@[simp] theorem putZ_pHi (z : Memory) (s : State) : (putZ z s).pHi = s.pHi := rfl
@[simp] theorem putZ_resultWritten (z : Memory) (s : State) : (putZ z s).resultWritten = s.resultWritten := rfl
@[simp] theorem putZ_status (z : Memory) (s : State) : (putZ z s).status = s.status := rfl
@[simp] theorem putZ_faultCmd (z : Memory) (s : State) : (putZ z s).faultCmd = s.faultCmd := rfl
@[simp] theorem putZ_ifCmd (z : Memory) (s : State) : (putZ z s).ifCmd = s.ifCmd := rfl
@[simp] theorem putZ_ifX (z : Memory) (s : State) : (putZ z s).ifX = s.ifX := rfl
@[simp] theorem putZ_ifY (z : Memory) (s : State) : (putZ z s).ifY = s.ifY := rfl
@[simp] theorem putZ_u (z : Memory) (s : State) : (putZ z s).u = s.u := rfl
@[simp] theorem putZ_remaining (z : Memory) (s : State) : (putZ z s).remaining = s.remaining := rfl
@[simp] theorem putZ_pos (z : Memory) (s : State) : (putZ z s).pos = s.pos := rfl
@[simp] theorem putZ_others (z : Memory) (s : State) : (putZ z s).others = s.others := rfl
@[simp] theorem putZ_agenda (z : Memory) (s : State) : (putZ z s).agenda = s.agenda := rfl
@[simp] theorem putZ_reads (z : Memory) (s : State) : (putZ z s).reads = s.reads := rfl
@[simp] theorem putZ_bus (z : Memory) (s : State) : (putZ z s).bus = s.bus := rfl

/-! ### putOthers -/

@[simp] theorem putOthers_cfg (os : List OtherCommand) (s : State) : (putOthers os s).cfg = s.cfg := rfl
@[simp] theorem putOthers_z (os : List OtherCommand) (s : State) : (putOthers os s).z = s.z := rfl
@[simp] theorem putOthers_pLo (os : List OtherCommand) (s : State) : (putOthers os s).pLo = s.pLo := rfl
@[simp] theorem putOthers_pHi (os : List OtherCommand) (s : State) : (putOthers os s).pHi = s.pHi := rfl
@[simp] theorem putOthers_resultWritten (os : List OtherCommand) (s : State) : (putOthers os s).resultWritten = s.resultWritten := rfl
@[simp] theorem putOthers_status (os : List OtherCommand) (s : State) : (putOthers os s).status = s.status := rfl
@[simp] theorem putOthers_faultCmd (os : List OtherCommand) (s : State) : (putOthers os s).faultCmd = s.faultCmd := rfl
@[simp] theorem putOthers_ifCmd (os : List OtherCommand) (s : State) : (putOthers os s).ifCmd = s.ifCmd := rfl
@[simp] theorem putOthers_ifX (os : List OtherCommand) (s : State) : (putOthers os s).ifX = s.ifX := rfl
@[simp] theorem putOthers_ifY (os : List OtherCommand) (s : State) : (putOthers os s).ifY = s.ifY := rfl
@[simp] theorem putOthers_u (os : List OtherCommand) (s : State) : (putOthers os s).u = s.u := rfl
@[simp] theorem putOthers_remaining (os : List OtherCommand) (s : State) : (putOthers os s).remaining = s.remaining := rfl
@[simp] theorem putOthers_pos (os : List OtherCommand) (s : State) : (putOthers os s).pos = s.pos := rfl
@[simp] theorem putOthers_others (os : List OtherCommand) (s : State) : (putOthers os s).others = os := rfl
@[simp] theorem putOthers_agenda (os : List OtherCommand) (s : State) : (putOthers os s).agenda = s.agenda := rfl
@[simp] theorem putOthers_reads (os : List OtherCommand) (s : State) : (putOthers os s).reads = s.reads := rfl
@[simp] theorem putOthers_bus (os : List OtherCommand) (s : State) : (putOthers os s).bus = s.bus := rfl

/-! ### State.launch (70_reset_and_hazards.md R65) -/

@[simp] theorem launch_cfg (cfg : Config) (z : Memory) (agenda : List Event) : (State.launch cfg z agenda).cfg = cfg := rfl
@[simp] theorem launch_z (cfg : Config) (z : Memory) (agenda : List Event) : (State.launch cfg z agenda).z = z := rfl
@[simp] theorem launch_pLo (cfg : Config) (z : Memory) (agenda : List Event) : (State.launch cfg z agenda).pLo = 0 := rfl
@[simp] theorem launch_pHi (cfg : Config) (z : Memory) (agenda : List Event) : (State.launch cfg z agenda).pHi = 0 := rfl
@[simp] theorem launch_resultWritten (cfg : Config) (z : Memory) (agenda : List Event) : (State.launch cfg z agenda).resultWritten = false := rfl
@[simp] theorem launch_status (cfg : Config) (z : Memory) (agenda : List Event) : (State.launch cfg z agenda).status = 0#32 := rfl
@[simp] theorem launch_faultCmd (cfg : Config) (z : Memory) (agenda : List Event) : (State.launch cfg z agenda).faultCmd = 0#32 := rfl
@[simp] theorem launch_ifCmd (cfg : Config) (z : Memory) (agenda : List Event) : (State.launch cfg z agenda).ifCmd = 0 := rfl
@[simp] theorem launch_ifX (cfg : Config) (z : Memory) (agenda : List Event) : (State.launch cfg z agenda).ifX = 0 := rfl
@[simp] theorem launch_ifY (cfg : Config) (z : Memory) (agenda : List Event) : (State.launch cfg z agenda).ifY = 0 := rfl
@[simp] theorem launch_u (cfg : Config) (z : Memory) (agenda : List Event) : (State.launch cfg z agenda).u = tableAtReset := rfl
@[simp] theorem launch_remaining (cfg : Config) (z : Memory) (agenda : List Event) : (State.launch cfg z agenda).remaining = 0 := rfl
@[simp] theorem launch_pos (cfg : Config) (z : Memory) (agenda : List Event) : (State.launch cfg z agenda).pos = 0 := rfl
@[simp] theorem launch_others (cfg : Config) (z : Memory) (agenda : List Event) : (State.launch cfg z agenda).others = [] := rfl
@[simp] theorem launch_agenda (cfg : Config) (z : Memory) (agenda : List Event) : (State.launch cfg z agenda).agenda = agenda := rfl
@[simp] theorem launch_reads (cfg : Config) (z : Memory) (agenda : List Event) : (State.launch cfg z agenda).reads = [] := rfl
@[simp] theorem launch_bus (cfg : Config) (z : Memory) (agenda : List Event) : (State.launch cfg z agenda).bus = [] := rfl

end Sys2Proof.Machine
end

