-- ==== Sys2Proof/Laws/Flags.lean ====
section
/-! SUPPORT. The fields of STATUS after each of its writes (10_state.md R10 to R14), and what follows for the states those writes give. -/

namespace Sys2Proof.Machine

theorem setBusy_bit (st : BitVec 32) (i : Nat) : (setBusy st).getLsbD i = (st.getLsbD i || decide (i = 1)) := by
  unfold setBusy
  rw [BitVec.getLsbD_or]
  by_cases h : i < 32
  · interval_cases i <;> rfl
  · rw [BitVec.getLsbD_of_ge _ _ (by omega), BitVec.getLsbD_of_ge _ _ (by omega)]
    simp; omega

theorem clearBusy_bit (st : BitVec 32) (i : Nat) : (clearBusy st).getLsbD i = (st.getLsbD i && decide (i ≠ 1)) := by
  unfold clearBusy
  rw [BitVec.getLsbD_and]
  by_cases h : i < 32
  · interval_cases i <;> rfl
  · rw [BitVec.getLsbD_of_ge _ _ (by omega)]
    simp

theorem causeField_bit (st : BitVec 32) (i : Nat) :
    (causeField st).getLsbD i = (decide (i < 4) && st.getLsbD (4 + i)) := by
  unfold causeField
  rw [BitVec.getLsbD_extractLsb']

@[simp] theorem faultBit_setBusy (st : BitVec 32) : faultBit (setBusy st) = faultBit st := by
  unfold faultBit; rw [setBusy_bit]; simp

@[simp] theorem busyBit_setBusy (st : BitVec 32) : busyBit (setBusy st) = true := by
  unfold busyBit; rw [setBusy_bit]; simp

@[simp] theorem causeField_setBusy (st : BitVec 32) : causeField (setBusy st) = causeField st := by
  apply BitVec.eq_of_getLsbD_eq
  intro i _
  rw [causeField_bit, causeField_bit, setBusy_bit]
  have h : 4 + i ≠ 1 := by omega
  simp [h]

@[simp] theorem faultBit_clearBusy (st : BitVec 32) : faultBit (clearBusy st) = faultBit st := by
  unfold faultBit; rw [clearBusy_bit]; simp

@[simp] theorem busyBit_clearBusy (st : BitVec 32) : busyBit (clearBusy st) = false := by
  unfold busyBit; rw [clearBusy_bit]; simp

@[simp] theorem causeField_clearBusy (st : BitVec 32) : causeField (clearBusy st) = causeField st := by
  apply BitVec.eq_of_getLsbD_eq
  intro i _
  rw [causeField_bit, causeField_bit, clearBusy_bit]
  have h : 4 + i ≠ 1 := by omega
  simp [h]

/-- Setting BUSY and clearing it again gives back a STATUS that had BUSY = 0. -/
theorem clearBusy_setBusy (st : BitVec 32) (h : busyBit st = false) : clearBusy (setBusy st) = st := by
  apply BitVec.eq_of_getLsbD_eq
  intro i _
  rw [clearBusy_bit, setBusy_bit]
  by_cases hi : i = 1
  · subst hi; simpa [busyBit] using h.symm
  · simp [hi]

theorem setFault_bit (c : Cause) (st : BitVec 32) (i : Nat) : (setFault c st).getLsbD i =
    if i = 0 then true else if 4 ≤ i ∧ i < 8 then c.code.getLsbD (i - 4) else st.getLsbD i := by
  unfold setFault
  rw [BitVec.getLsbD_or, BitVec.getLsbD_or, BitVec.getLsbD_and]
  by_cases h : i < 32
  · cases c <;> interval_cases i <;> simp [Cause.code]
  · rw [BitVec.getLsbD_of_ge _ _ (by omega), BitVec.getLsbD_of_ge _ _ (by omega), BitVec.getLsbD_of_ge _ _ (by omega)]
    have h1 : i ≠ 0 := by omega
    have h2 : ¬ (4 ≤ i ∧ i < 8) := by omega
    simp [h1, h2]

@[simp] theorem faultBit_setFault (c : Cause) (st : BitVec 32) : faultBit (setFault c st) = true := by
  unfold faultBit; rw [setFault_bit]; simp

@[simp] theorem busyBit_setFault (c : Cause) (st : BitVec 32) : busyBit (setFault c st) = busyBit st := by
  unfold busyBit; rw [setFault_bit]; simp

@[simp] theorem causeField_setFault (c : Cause) (st : BitVec 32) : causeField (setFault c st) = c.code := by
  apply BitVec.eq_of_getLsbD_eq
  intro i hi
  rw [causeField_bit, setFault_bit]
  have h2 : 4 ≤ 4 + i ∧ 4 + i < 8 := by omega
  simp [h2, hi]

/-- A STATUS word has its reserved bits 0 when each of them is. -/
theorem reserved_iff (st : BitVec 32) :
    st &&& reservedMask = 0 ↔ ∀ i, i < 32 → (i = 2 ∨ i = 3 ∨ 8 ≤ i) → st.getLsbD i = false := by
  have key : ∀ i, i < 32 → reservedMask.getLsbD i = decide (i = 2 ∨ i = 3 ∨ 8 ≤ i) := by decide
  constructor
  · intro h i hi hr
    have := congrArg (fun v => v.getLsbD i) h
    simpa [BitVec.getLsbD_and, key i hi, hr] using this
  · intro h
    apply BitVec.eq_of_getLsbD_eq
    intro i hi
    rw [BitVec.getLsbD_and, key i hi]
    by_cases hr : i = 2 ∨ i = 3 ∨ 8 ≤ i
    · simp [h i hi hr]
    · simp [hr]

theorem reserved_setBusy (st : BitVec 32) (h : st &&& reservedMask = 0) : setBusy st &&& reservedMask = 0 := by
  rw [reserved_iff] at *
  intro i hi hr
  rw [setBusy_bit, h i hi hr]
  simp; omega

theorem reserved_clearBusy (st : BitVec 32) (h : st &&& reservedMask = 0) : clearBusy st &&& reservedMask = 0 := by
  rw [reserved_iff] at *
  intro i hi hr
  rw [clearBusy_bit, h i hi hr]
  simp

theorem reserved_setFault (c : Cause) (st : BitVec 32) (h : st &&& reservedMask = 0) :
    setFault c st &&& reservedMask = 0 := by
  rw [reserved_iff] at *
  intro i hi hr
  rw [setFault_bit, if_neg (by omega), if_neg (by omega), h i hi hr]

/-! ### FAULT, BUSY and CAUSE of the states the operations give -/

@[simp] theorem raise_fault (c : Cause) (cmd : BitVec 32) (s : State) : (raise c cmd s).fault = true := by
  simp [State.fault]
@[simp] theorem raise_busy (c : Cause) (cmd : BitVec 32) (s : State) : (raise c cmd s).busy = s.busy := by
  simp [State.busy]
@[simp] theorem raise_cause (c : Cause) (cmd : BitVec 32) (s : State) : (raise c cmd s).cause = c.code := by
  simp [State.cause]
@[simp] theorem resetBlock_fault (s : State) : (resetBlock s).fault = false := by
  rw [State.fault, resetBlock_status]; decide
@[simp] theorem resetBlock_busy (s : State) : (resetBlock s).busy = false := by
  rw [State.busy, resetBlock_status]; decide
@[simp] theorem resetBlock_cause (s : State) : (resetBlock s).cause = 0 := by
  rw [State.cause, resetBlock_status]; decide
@[simp] theorem latch_fault (t : Transaction) (s : State) : (latch t s).fault = s.fault := by simp [State.fault]
@[simp] theorem latch_busy (t : Transaction) (s : State) : (latch t s).busy = true := by simp [State.busy]
@[simp] theorem latch_cause (t : Transaction) (s : State) : (latch t s).cause = s.cause := by simp [State.cause]
@[simp] theorem complete_fault (s : State) : (complete s).fault = s.fault := by simp [State.fault]
@[simp] theorem complete_busy (s : State) : (complete s).busy = false := by simp [State.busy]
@[simp] theorem complete_cause (s : State) : (complete s).cause = s.cause := by simp [State.cause]
@[simp] theorem observe_fault (o : Observation) (s : State) : (observe o s).fault = s.fault := rfl
@[simp] theorem observe_busy (o : Observation) (s : State) : (observe o s).busy = s.busy := rfl
@[simp] theorem observe_cause (o : Observation) (s : State) : (observe o s).cause = s.cause := rfl
@[simp] theorem accept_fault (rest : List Event) (s : State) : (accept rest s).fault = s.fault := rfl
@[simp] theorem accept_busy (rest : List Event) (s : State) : (accept rest s).busy = s.busy := rfl
@[simp] theorem accept_cause (rest : List Event) (s : State) : (accept rest s).cause = s.cause := rfl
@[simp] theorem accept_cmdReady (rest : List Event) (s : State) : (accept rest s).cmdReady = s.cmdReady := rfl
@[simp] theorem proceed_fault (rest : List Event) (s : State) : (proceed rest s).fault = s.fault := rfl
@[simp] theorem proceed_busy (rest : List Event) (s : State) : (proceed rest s).busy = s.busy := rfl
@[simp] theorem proceed_cause (rest : List Event) (s : State) : (proceed rest s).cause = s.cause := rfl
@[simp] theorem proceed_cmdReady (rest : List Event) (s : State) : (proceed rest s).cmdReady = s.cmdReady := rfl
@[simp] theorem shorten_fault (s : State) : (shorten s).fault = s.fault := rfl
@[simp] theorem shorten_busy (s : State) : (shorten s).busy = s.busy := rfl
@[simp] theorem shorten_cause (s : State) : (shorten s).cause = s.cause := rfl
@[simp] theorem shorten_cmdReady (s : State) : (shorten s).cmdReady = s.cmdReady := rfl
@[simp] theorem putZ_fault (z : Memory) (s : State) : (putZ z s).fault = s.fault := rfl
@[simp] theorem putZ_busy (z : Memory) (s : State) : (putZ z s).busy = s.busy := rfl
@[simp] theorem putZ_cause (z : Memory) (s : State) : (putZ z s).cause = s.cause := rfl
@[simp] theorem putZ_cmdReady (z : Memory) (s : State) : (putZ z s).cmdReady = s.cmdReady := rfl
@[simp] theorem putOthers_fault (os : List OtherCommand) (s : State) : (putOthers os s).fault = s.fault := rfl
@[simp] theorem putOthers_busy (os : List OtherCommand) (s : State) : (putOthers os s).busy = s.busy := rfl
@[simp] theorem putOthers_cause (os : List OtherCommand) (s : State) : (putOthers os s).cause = s.cause := rfl
@[simp] theorem putOthers_cmdReady (os : List OtherCommand) (s : State) : (putOthers os s).cmdReady = s.cmdReady := rfl

/-- The block accepts a command exactly when it is neither busy nor faulted (70_reset_and_hazards.md R70). -/
theorem cmdReady_iff (s : State) : s.cmdReady = true ↔ s.busy = false ∧ s.fault = false := by
  simp [State.cmdReady]

end Sys2Proof.Machine
end

