-- ==== Sys2Proof/Laws/Memory.lean ====
section
/-! SUPPORT. The laws of Z: canonical form, read after write, words of bytes (20_memory.md R22, R23), and the accumulation (R24). -/

namespace Sys2Proof.Machine

/-! ### One byte -/

theorem wf_cons (a : Nat) (b : Byte) (m : Memory) : Memory.wf ((a, b) :: m) = true ↔
    b ≠ unlistedByte ∧ (∀ c ∈ m, a < c.1) ∧ Memory.wf m = true := by
  simp [Memory.wf, and_assoc]

/-- An address below every listed one is unlisted. -/
theorem readByte_below (m : Memory) (a : Nat) (h : ∀ c ∈ m, a < c.1) : m.readByte a = unlistedByte := by
  induction m with
  | nil => rfl
  | cons c m ih =>
    obtain ⟨a', b'⟩ := c
    have h1 : a < a' := h (a', b') (by simp)
    rw [Memory.readByte, if_neg (by omega)]
    exact ih fun c hc => h c (List.mem_cons_of_mem _ hc)

/-- The addresses after a write are the old ones and the one written. -/
theorem mem_writeByte (m : Memory) (a : Nat) (b : Byte) (c : Host.Cell) (h : c ∈ m.writeByte a b) :
    c.1 = a ∨ c ∈ m := by
  induction m with
  | nil =>
    simp only [Memory.writeByte] at h
    split at h <;> simp_all
  | cons d m ih =>
    obtain ⟨a', b'⟩ := d
    simp only [Memory.writeByte] at h
    split at h
    · split at h
      · exact .inr h
      · rcases List.mem_cons.mp h with rfl | h
        · exact .inl rfl
        · exact .inr h
    · split at h
      · split at h
        · exact .inr (List.mem_cons_of_mem _ h)
        · rcases List.mem_cons.mp h with rfl | h
          · exact .inl rfl
          · exact .inr (List.mem_cons_of_mem _ h)
      · rcases List.mem_cons.mp h with rfl | h
        · exact .inr (by simp)
        · exact (ih h).imp id (List.mem_cons_of_mem _)

/-- A write keeps the canonical form. -/
theorem wf_writeByte (m : Memory) (a : Nat) (b : Byte) (h : m.wf = true) : (m.writeByte a b).wf = true := by
  induction m with
  | nil =>
    simp only [Memory.writeByte]
    split
    · rfl
    · rw [wf_cons]; exact ⟨‹_›, by simp, rfl⟩
  | cons d m ih =>
    obtain ⟨a', b'⟩ := d
    have h0 := h
    rw [wf_cons] at h
    obtain ⟨hb, hlt, hm⟩ := h
    simp only [Memory.writeByte]
    split
    · split
      · exact h0
      · rw [wf_cons]
        refine ⟨‹_›, fun c hc => ?_, h0⟩
        rcases List.mem_cons.mp hc with rfl | hc
        · assumption
        · have := hlt c hc; omega
    · split
      · subst_vars
        split
        · exact hm
        · rw [wf_cons]; exact ⟨‹_›, hlt, hm⟩
      · rw [wf_cons]
        refine ⟨hb, fun c hc => ?_, ih hm⟩
        rcases mem_writeByte m a b c hc with h | h
        · omega
        · exact hlt c h

/-- Read after write, in a canonical memory: the byte written there, every other byte as before. -/
theorem readByte_writeByte (m : Memory) (a : Nat) (b : Byte) (a' : Nat) (h : m.wf = true) :
    (m.writeByte a b).readByte a' = if a' = a then b else m.readByte a' := by
  induction m with
  | nil =>
    simp only [Memory.writeByte]
    split <;> by_cases h' : a' = a <;> simp_all [Memory.readByte]
  | cons d m ih =>
    obtain ⟨a₁, b₁⟩ := d
    rw [wf_cons] at h
    obtain ⟨hb, hlt, hm⟩ := h
    simp only [Memory.writeByte]
    split
    · split
      · by_cases h' : a' = a
        · subst h'
          rw [if_pos rfl, readByte_below _ _ _, eq_comm]
          · assumption
          · intro c hc
            rcases List.mem_cons.mp hc with rfl | hc
            · assumption
            · have := hlt c hc; omega
        · rw [if_neg h']
      · rw [Memory.readByte]
    · split
      · rename_i heq
        subst heq
        split
        · by_cases h' : a' = a
          · subst h'
            rw [if_pos rfl, readByte_below _ _ hlt, eq_comm]; assumption
          · rw [if_neg h', Memory.readByte, if_neg h']
        · rw [Memory.readByte, Memory.readByte]
          split <;> rfl
      · rw [Memory.readByte, Memory.readByte, ih hm]
        by_cases h' : a' = a₁
        · have : a' ≠ a := by omega
          subst h'
          rw [if_pos rfl, if_neg this, if_pos rfl]
        · simp [h']

/-- Two canonical memories that read the same everywhere are the same list. -/
theorem memory_ext (m n : Memory) (hm : m.wf = true) (hn : n.wf = true)
    (h : ∀ a, m.readByte a = n.readByte a) : m = n := by
  induction m generalizing n with
  | nil =>
    cases n with
    | nil => rfl
    | cons d n =>
      obtain ⟨a, b⟩ := d
      rw [wf_cons] at hn
      have := h a
      simp only [Memory.readByte, if_pos] at this
      exact absurd this.symm hn.1
  | cons d m ih =>
    obtain ⟨a, b⟩ := d
    have hm0 := hm
    rw [wf_cons] at hm
    cases n with
    | nil =>
      have := h a
      simp only [Memory.readByte, if_pos] at this
      exact absurd this hm.1
    | cons d' n =>
      obtain ⟨a', b'⟩ := d'
      have hn0 := hn
      rw [wf_cons] at hn
      have haa : a = a' := by
        by_contra hne
        rcases Nat.lt_or_gt_of_ne hne with hlt | hlt
        · have h1 := h a
          rw [readByte_below ((a', b') :: n) a] at h1
          · simp only [Memory.readByte, if_pos] at h1
            exact hm.1 h1
          · intro c hc
            rcases List.mem_cons.mp hc with rfl | hc
            · exact hlt
            · have := hn.2.1 c hc; omega
        · have h1 := h a'
          rw [readByte_below ((a, b) :: m) a'] at h1
          · simp only [Memory.readByte, if_pos] at h1
            exact hn.1 h1.symm
          · intro c hc
            rcases List.mem_cons.mp hc with rfl | hc
            · exact hlt
            · have := hm.2.1 c hc; omega
      subst haa
      have hbb : b = b' := by simpa [Memory.readByte] using h a
      subst hbb
      have : m = n := by
        apply ih n hm.2.2 hn.2.2
        intro x
        have h1 := h x
        by_cases hx : x = a
        · subst hx
          rw [readByte_below _ _ hm.2.1, readByte_below _ _ hn.2.1]
        · simpa [Memory.readByte, hx] using h1
      rw [this]

theorem inside_iff (words : Nat) (m : Memory) : m.inside words = true ↔ ∀ c ∈ m, c.1 < 8 * words := by
  simp [Memory.inside]

theorem inside_writeByte (words : Nat) (m : Memory) (a : Nat) (b : Byte) (h : m.inside words = true)
    (ha : a < 8 * words) : (m.writeByte a b).inside words = true := by
  rw [inside_iff] at *
  intro c hc
  rcases mem_writeByte m a b c hc with h' | h'
  · omega
  · exact h c h'

/-! ### One word -/

theorem wf_writeBytes (m : Memory) (j : Nat) (v : Word) (n : Nat) (h : m.wf = true) :
    (m.writeBytes j v n).wf = true := by
  induction n with
  | zero => exact h
  | succ n ih => exact wf_writeByte _ _ _ ih

theorem readByte_writeBytes (m : Memory) (j : Nat) (v : Word) (n a : Nat) (h : m.wf = true) :
    (m.writeBytes j v n).readByte a =
      if 8 * j ≤ a ∧ a < 8 * j + n then wordByte v (a - 8 * j) else m.readByte a := by
  induction n with
  | zero => rw [if_neg (by omega)]; rfl
  | succ n ih =>
    rw [Memory.writeBytes, readByte_writeByte _ _ _ _ (wf_writeBytes m j v n h), ih]
    by_cases h1 : a = 8 * j + n
    · subst h1
      rw [if_pos rfl, if_pos (by omega)]
      congr 1; omega
    · rw [if_neg h1]
      by_cases h2 : 8 * j ≤ a ∧ a < 8 * j + n
      · rw [if_pos h2, if_pos (by omega)]
      · rw [if_neg h2, if_neg (by omega)]

theorem wf_writeWord (m : Memory) (j : Nat) (v : Word) (h : m.wf = true) : (m.writeWord j v).wf = true :=
  wf_writeBytes m j v 8 h

/-- The bytes of a word written: bits [8k+7 : 8k] at address 8j + k, every other byte as before (20_memory.md R22). -/
theorem readByte_writeWord (m : Memory) (j : Nat) (v : Word) (a : Nat) (h : m.wf = true) :
    (m.writeWord j v).readByte a =
      if 8 * j ≤ a ∧ a < 8 * j + 8 then wordByte v (a - 8 * j) else m.readByte a :=
  readByte_writeBytes m j v 8 a h

theorem inside_writeBytes (words : Nat) (m : Memory) (j : Nat) (v : Word) (n : Nat) (h : m.inside words = true)
    (hj : j < words) (hn : n ≤ 8) : (m.writeBytes j v n).inside words = true := by
  induction n with
  | zero => exact h
  | succ n ih => exact inside_writeByte _ _ _ _ (ih (by omega)) (by omega)

theorem inside_writeWord (words : Nat) (m : Memory) (j : Nat) (v : Word) (h : m.inside words = true)
    (hj : j < words) : (m.writeWord j v).inside words = true :=
  inside_writeBytes words m j v 8 h hj (by omega)

/-- Bit i of word j is bit i mod 8 of its byte i div 8 (20_memory.md R22). -/
theorem readWord_bit (m : Memory) (j i : Nat) (hi : i < 64) :
    (m.readWord j).getLsbD i = (m.readByte (8 * j + i / 8)).getLsbD (i % 8) := by
  unfold Memory.readWord
  simp only [BitVec.getLsbD_append]
  interval_cases i <;> rfl

theorem wordByte_bit (v : Word) (k i : Nat) : (wordByte v k).getLsbD i = (decide (i < 8) && v.getLsbD (8 * k + i)) := by
  unfold wordByte
  rw [BitVec.getLsbD_extractLsb']

/-- A word is read byte by byte (20_memory.md R22). -/
theorem wordByte_readWord (m : Memory) (j k : Nat) (hk : k < 8) :
    wordByte (m.readWord j) k = m.readByte (8 * j + k) := by
  apply BitVec.eq_of_getLsbD_eq
  intro i hi
  rw [wordByte_bit, readWord_bit _ _ _ (by omega)]
  have h1 : (8 * k + i) / 8 = k := by omega
  have h2 : (8 * k + i) % 8 = i := by omega
  simp [h1, h2, hi]

/-- A word depends on its eight bytes only. -/
theorem readWord_congr (m n : Memory) (j : Nat) (h : ∀ k, k < 8 → m.readByte (8 * j + k) = n.readByte (8 * j + k)) :
    m.readWord j = n.readWord j := by
  apply BitVec.eq_of_getLsbD_eq
  intro i hi
  rw [readWord_bit _ _ _ hi, readWord_bit _ _ _ hi, h _ (by omega)]

/-- Read after write of words. -/
theorem readWord_writeWord (m : Memory) (j : Nat) (v : Word) (j' : Nat) (h : m.wf = true) :
    (m.writeWord j v).readWord j' = if j' = j then v else m.readWord j' := by
  by_cases hj : j' = j
  · subst hj
    rw [if_pos rfl]
    apply BitVec.eq_of_getLsbD_eq
    intro i hi
    rw [readWord_bit _ _ _ hi, readByte_writeWord _ _ _ _ h, if_pos (by omega), wordByte_bit]
    have h1 : 8 * j' + i / 8 - 8 * j' = i / 8 := by omega
    have h2 : 8 * (i / 8) + i % 8 = i := by omega
    have h3 : i % 8 < 8 := by omega
    simp [h1, h2, h3]
  · rw [if_neg hj]
    apply readWord_congr
    intro k hk
    rw [readByte_writeWord _ _ _ _ h, if_neg (by omega)]

/-- Two canonical memories with the same words are the same list. -/
theorem memory_ext_words (m n : Memory) (hm : m.wf = true) (hn : n.wf = true)
    (h : ∀ j, m.readWord j = n.readWord j) : m = n := by
  apply memory_ext m n hm hn
  intro a
  have h1 : 8 * (a / 8) + a % 8 = a := by omega
  rw [← h1, ← wordByte_readWord m _ _ (by omega), ← wordByte_readWord n _ _ (by omega), h]

/-! ### The accumulation -/

theorem wf_accumulate (z : Memory) (zoff : BitVec 26) (p : Product) (h : z.wf = true) :
    (accumulate z zoff p).wf = true :=
  wf_writeWord _ _ _ (wf_writeWord _ _ _ h)

theorem inside_accumulate (words : Nat) (z : Memory) (zoff : BitVec 26) (p : Product) (h : z.inside words = true)
    (hz : zoff.toNat + 2 ≤ words) : (accumulate z zoff p).inside words = true :=
  inside_writeWord _ _ _ _ (inside_writeWord _ _ _ _ h (by unfold lowIndex; omega)) (by unfold highIndex; omega)

/-- The words of Z after an accumulation (20_memory.md R24). -/
theorem readWord_accumulate (z : Memory) (zoff : BitVec 26) (p : Product) (j : Nat) (h : z.wf = true) :
    (accumulate z zoff p).readWord j =
      if j = lowIndex zoff then z.readWord j ^^^ p.low
      else if j = highIndex zoff then z.readWord j ^^^ p.high
      else z.readWord j := by
  unfold accumulate
  simp only
  rw [readWord_writeWord _ _ _ _ (wf_writeWord _ _ _ h), readWord_writeWord _ _ _ _ h]
  by_cases h1 : j = lowIndex zoff
  · have h2 : j ≠ highIndex zoff := by simp only [lowIndex, highIndex] at *; omega
    rw [if_neg h2, if_pos h1, if_pos h1, h1]
  · by_cases h2 : j = highIndex zoff
    · rw [if_pos h2, if_neg h1, if_pos h2, h2]
    · rw [if_neg h2, if_neg h1, if_neg h1, if_neg h2]

/-- The bytes outside the two target words stay as they are (20_memory.md R24). -/
theorem readByte_accumulate (z : Memory) (zoff : BitVec 26) (p : Product) (a : Nat) (h : z.wf = true)
    (ha : targets zoff (a / 8) = false) : (accumulate z zoff p).readByte a = z.readByte a := by
  simp only [targets, lowIndex, highIndex, Bool.or_eq_false_iff, beq_eq_false_iff_ne] at ha
  unfold accumulate
  simp only [lowIndex, highIndex]
  rw [readByte_writeWord _ _ _ _ (wf_writeWord _ _ _ h), if_neg (by omega), readByte_writeWord _ _ _ _ h,
    if_neg (by omega)]

end Sys2Proof.Machine
end

