-- ==== Sys2Proof/Laws/Ops.lean ====
section
/-! SUPPORT. What each shared operation can do: one lemma per operation, which proofs cite instead of unfolding it. -/

namespace Sys2Proof.Machine

/-! ### Windows and targets -/

theorem targets_iff (zoff : BitVec 26) (j : Nat) : targets zoff j = true ↔ j = zoff.toNat ∨ j = zoff.toNat + 1 := by
  simp [targets, lowIndex, highIndex]

theorem overlap_iff (a b : BitVec 26) :
    overlap a b = true ↔ a.toNat = b.toNat ∨ a.toNat = b.toNat + 1 ∨ b.toNat = a.toNat + 1 := by
  simp only [overlap, targets, lowIndex, highIndex, Bool.or_eq_true, beq_iff_eq]
  omega

theorem overlap_comm (a b : BitVec 26) : overlap a b = overlap b a := by
  rw [Bool.eq_iff_iff, overlap_iff, overlap_iff]
  omega

theorem outOfRange_false_iff (c : Config) (zoff : BitVec 26) :
    outOfRange c zoff = false ↔ zoff.toNat + 2 ≤ c.extWords := by
  simp [outOfRange]

@[simp] theorem latch_ifZoff (t : Transaction) (s : State) : (latch t s).ifZoff = zoffField t.cmd := rfl
@[simp] theorem proceed_ifZoff (rest : List Event) (s : State) : (proceed rest s).ifZoff = s.ifZoff := rfl
@[simp] theorem accept_ifZoff (rest : List Event) (s : State) : (accept rest s).ifZoff = s.ifZoff := rfl
@[simp] theorem raise_ifZoff (c : Cause) (cmd : BitVec 32) (s : State) : (raise c cmd s).ifZoff = s.ifZoff := rfl
@[simp] theorem complete_ifZoff (s : State) : (complete s).ifZoff = s.ifZoff := by simp [State.ifZoff]
@[simp] theorem shorten_ifZoff (s : State) : (shorten s).ifZoff = s.ifZoff := rfl
@[simp] theorem putZ_ifZoff (z : Memory) (s : State) : (putZ z s).ifZoff = s.ifZoff := rfl
@[simp] theorem putOthers_ifZoff (os : List OtherCommand) (s : State) : (putOthers os s).ifZoff = s.ifZoff := rfl
@[simp] theorem observe_ifZoff (o : Observation) (s : State) : (observe o s).ifZoff = s.ifZoff := rfl

theorem ownWindow_idle (s : State) (h : s.busy = false) : s.ownWindow = [] := by
  simp [State.ownWindow, h]

theorem ownWindow_busy (s : State) (h : s.busy = true) : s.ownWindow = [s.ifZoff] := by
  simp [State.ownWindow, h]

/-- The block's own window depends on BUSY and the latched command word only. -/
theorem ownWindow_congr (s t : State) (hb : t.busy = s.busy) (hi : t.ifCmd = s.ifCmd) : t.ownWindow = s.ownWindow := by
  simp [State.ownWindow, State.ifZoff, hb, hi]

theorem windows_idle (s : State) (h : s.busy = false) : s.windows = s.others.map (·.zoff) := by
  rw [State.windows, ownWindow_idle s h, List.nil_append]

theorem windows_busy (s : State) (h : s.busy = true) : s.windows = s.ifZoff :: s.others.map (·.zoff) := by
  rw [State.windows, ownWindow_busy s h, List.singleton_append]

/-- The windows depend on BUSY, the latched command word and the other instances only. -/
theorem windows_congr (s t : State) (hb : t.busy = s.busy) (hi : t.ifCmd = s.ifCmd) (ho : t.others = s.others) :
    t.windows = s.windows := by
  rw [State.windows, State.windows, ownWindow_congr s t hb hi, ho]

@[simp] theorem proceed_ownWindow (rest : List Event) (s : State) : (proceed rest s).ownWindow = s.ownWindow :=
  ownWindow_congr s _ rfl rfl

@[simp] theorem proceed_windows (rest : List Event) (s : State) : (proceed rest s).windows = s.windows :=
  windows_congr s _ rfl rfl rfl

@[simp] theorem accept_ownWindow (rest : List Event) (s : State) : (accept rest s).ownWindow = s.ownWindow :=
  ownWindow_congr s _ rfl rfl

@[simp] theorem accept_windows (rest : List Event) (s : State) : (accept rest s).windows = s.windows :=
  windows_congr s _ rfl rfl rfl

@[simp] theorem observe_ownWindow (o : Observation) (s : State) : (observe o s).ownWindow = s.ownWindow :=
  ownWindow_congr s _ rfl rfl

@[simp] theorem observe_windows (o : Observation) (s : State) : (observe o s).windows = s.windows :=
  windows_congr s _ rfl rfl rfl

@[simp] theorem shorten_ownWindow (s : State) : (shorten s).ownWindow = s.ownWindow :=
  ownWindow_congr s _ rfl rfl

@[simp] theorem shorten_windows (s : State) : (shorten s).windows = s.windows :=
  windows_congr s _ rfl rfl rfl

@[simp] theorem putZ_ownWindow (z : Memory) (s : State) : (putZ z s).ownWindow = s.ownWindow :=
  ownWindow_congr s _ rfl rfl

@[simp] theorem putZ_windows (z : Memory) (s : State) : (putZ z s).windows = s.windows :=
  windows_congr s _ rfl rfl rfl

@[simp] theorem putOthers_ownWindow (os : List OtherCommand) (s : State) : (putOthers os s).ownWindow = s.ownWindow :=
  ownWindow_congr s _ rfl rfl

@[simp] theorem raise_windows (c : Cause) (cmd : BitVec 32) (s : State) : (raise c cmd s).windows = s.windows :=
  windows_congr s _ (raise_busy c cmd s) rfl rfl

@[simp] theorem putOthers_windows (os : List OtherCommand) (s : State) :
    (putOthers os s).windows = s.ownWindow ++ os.map (·.zoff) := by
  rw [State.windows, putOthers_ownWindow, putOthers_others]

@[simp] theorem resetBlock_windows (s : State) : (resetBlock s).windows = s.others.map (·.zoff) := by
  rw [windows_idle _ (resetBlock_busy s), resetBlock_others]

@[simp] theorem complete_windows (s : State) : (complete s).windows = s.others.map (·.zoff) := by
  rw [windows_idle _ (complete_busy s), complete_others]

@[simp] theorem latch_windows (t : Transaction) (s : State) :
    (latch t s).windows = zoffField t.cmd :: s.others.map (·.zoff) := by
  rw [windows_busy _ (latch_busy t s), latch_ifZoff, latch_others]

theorem racesWith_false_iff (s : State) (zoff : BitVec 26) :
    s.racesWith zoff = false ↔ ∀ w ∈ s.windows, overlap zoff w = false := by
  simp [State.racesWith]

theorem racesAt_false_iff (s : State) (j : Nat) :
    s.racesAt j = false ↔ ∀ w ∈ s.windows, targets w j = false := by
  simp [State.racesAt]

/-! ### The clock cycle -/

theorem tick_idle (s : State) (h : s.busy = false) : tick s = s := by
  simp [tick, h]

theorem tick_last (s : State) (h : s.busy = true) (hr : s.remaining ≤ 1) : tick s = complete s := by
  simp [tick, h, hr]

theorem tick_window (s : State) (h : s.busy = true) (hr : 1 < s.remaining) :
    tick s = shorten s := by
  have : ¬ s.remaining ≤ 1 := by omega
  simp [tick, h, this]

/-- Everything a clock cycle can do. -/
theorem tick_cases (s : State) : (s.busy = false ∧ tick s = s) ∨
    (s.busy = true ∧ s.remaining ≤ 1 ∧ tick s = complete s) ∨
    (s.busy = true ∧ 1 < s.remaining ∧ tick s = shorten s) := by
  by_cases hb : s.busy = true
  · by_cases hr : s.remaining ≤ 1
    · exact .inr (.inl ⟨hb, hr, tick_last s hb hr⟩)
    · exact .inr (.inr ⟨hb, by omega, tick_window s hb (by omega)⟩)
  · exact .inl ⟨by simpa using hb, tick_idle s (by simpa using hb)⟩

/-- A clock cycle leaves the agenda, the configuration and the position alone. -/
@[simp] theorem tick_agenda (s : State) : (tick s).agenda = s.agenda := by
  rcases tick_cases s with ⟨-, e⟩ | ⟨-, -, e⟩ | ⟨-, -, e⟩ <;> rw [e] <;> simp

@[simp] theorem tick_cfg (s : State) : (tick s).cfg = s.cfg := by
  rcases tick_cases s with ⟨-, e⟩ | ⟨-, -, e⟩ | ⟨-, -, e⟩ <;> rw [e] <;> simp

@[simp] theorem tick_pos (s : State) : (tick s).pos = s.pos := by
  rcases tick_cases s with ⟨-, e⟩ | ⟨-, -, e⟩ | ⟨-, -, e⟩ <;> rw [e] <;> simp

@[simp] theorem tick_fault (s : State) : (tick s).fault = s.fault := by
  rcases tick_cases s with ⟨-, e⟩ | ⟨-, -, e⟩ | ⟨-, -, e⟩ <;> rw [e] <;> simp

/-- COMPLETE does not look at the agenda. -/
theorem complete_proceed (rest : List Event) (s : State) : complete (proceed rest s) = proceed rest (complete s) := by
  simp only [complete, proceed, State.ifZoff]

/-- A clock cycle does not look at the agenda. -/
theorem tick_proceed (rest : List Event) (s : State) : tick (proceed rest s) = proceed rest (tick s) := by
  rcases tick_cases s with ⟨hb, e⟩ | ⟨hb, hr, e⟩ | ⟨hb, hr, e⟩ <;> rw [e]
  · exact tick_idle (proceed rest s) hb
  · rw [tick_last (proceed rest s) hb hr, complete_proceed]
  · exact tick_window (proceed rest s) hb hr

/-! ### MULWACC -/

/-- Everything ISSUE of a MULWACC can do (40_clmul.md R40). -/
theorem issueMulwacc_next (zoff : BitVec 26) (x y : Word) (s t : State) (h : issueMulwacc zoff x y s = .next t) :
    s.cmdReady = true ∧
      ((outOfRange s.cfg zoff = true ∧ t = raise .offsetRange (mulwaccWord zoff) s) ∨
        (outOfRange s.cfg zoff = false ∧ s.racesWith zoff = false ∧ t = latch (encode (.mulwacc zoff x y)) s)) := by
  unfold issueMulwacc at h
  simp only at h
  split at h
  · cases h
  · rename_i hr
    have hr : s.cmdReady = true := by simpa using hr
    split at h
    · exact ⟨hr, .inl ⟨‹_›, (Host.Outcome.next.inj h).symm⟩⟩
    · split at h
      · cases h
      · rename_i h1 h2
        exact ⟨hr, .inr ⟨by simpa using h1, by simpa using h2, (Host.Outcome.next.inj h).symm⟩⟩

theorem issueMulwacc_latches (zoff : BitVec 26) (x y : Word) (s : State) (hr : s.cmdReady = true)
    (ho : outOfRange s.cfg zoff = false) (hc : s.racesWith zoff = false) :
    issueMulwacc zoff x y s = .next (latch (encode (.mulwacc zoff x y)) s) := by
  simp [issueMulwacc, hr, ho, hc]

theorem issueMulwacc_raises (zoff : BitVec 26) (x y : Word) (s : State) (hr : s.cmdReady = true)
    (ho : outOfRange s.cfg zoff = true) :
    issueMulwacc zoff x y s = .next (raise .offsetRange (mulwaccWord zoff) s) := by
  simp [issueMulwacc, hr, ho]

theorem issueMulwacc_races (zoff : BitVec 26) (x y : Word) (s : State) (hr : s.cmdReady = true)
    (ho : outOfRange s.cfg zoff = false) (hc : s.racesWith zoff = true) :
    issueMulwacc zoff x y s = .fault .raceZ := by
  simp [issueMulwacc, hr, ho, hc]

theorem issueMulwacc_blocked (zoff : BitVec 26) (x y : Word) (s : State) (hr : s.cmdReady = false) :
    issueMulwacc zoff x y s = .refused .issueWhileBlocked := by
  simp [issueMulwacc, hr]

/-- A completing MULWACC is ISSUE and then COMPLETE (70_reset_and_hazards.md R74). -/
theorem execMulwacc_completes (zoff : BitVec 26) (x y : Word) (s : State) (hr : s.cmdReady = true)
    (ho : outOfRange s.cfg zoff = false) (hc : s.racesWith zoff = false) :
    execMulwacc zoff x y s = .next (complete (latch (encode (.mulwacc zoff x y)) s)) := by
  simp only [execMulwacc, issueMulwacc_latches zoff x y s hr ho hc, finish, latch_busy, if_true]

theorem execMulwacc_raises (zoff : BitVec 26) (x y : Word) (s : State) (hr : s.cmdReady = true)
    (ho : outOfRange s.cfg zoff = true) :
    execMulwacc zoff x y s = .next (raise .offsetRange (mulwaccWord zoff) s) := by
  have hb := ((cmdReady_iff s).mp hr).1
  rw [execMulwacc, issueMulwacc_raises zoff x y s hr ho, finish, if_neg (by simp [hb])]

theorem execMulwacc_races (zoff : BitVec 26) (x y : Word) (s : State) (hr : s.cmdReady = true)
    (ho : outOfRange s.cfg zoff = false) (hc : s.racesWith zoff = true) : execMulwacc zoff x y s = .fault .raceZ := by
  rw [execMulwacc, issueMulwacc_races zoff x y s hr ho hc, finish]

theorem execMulwacc_blocked (zoff : BitVec 26) (x y : Word) (s : State) (hr : s.cmdReady = false) :
    execMulwacc zoff x y s = .refused .issueWhileBlocked := by
  rw [execMulwacc, issueMulwacc_blocked zoff x y s hr, finish]

/-- Everything MULWACC can do (40_clmul.md R40). -/
theorem execMulwacc_next (zoff : BitVec 26) (x y : Word) (s t : State) (h : execMulwacc zoff x y s = .next t) :
    s.cmdReady = true ∧
      ((outOfRange s.cfg zoff = true ∧ t = raise .offsetRange (mulwaccWord zoff) s) ∨
        (outOfRange s.cfg zoff = false ∧ s.racesWith zoff = false ∧
          t = complete (latch (encode (.mulwacc zoff x y)) s))) := by
  have h' : ∃ t', issueMulwacc zoff x y s = .next t' := by
    unfold execMulwacc at h
    cases hi : issueMulwacc zoff x y s with
    | next t' => exact ⟨t', rfl⟩
    | fault r => rw [hi] at h; cases h
    | refused r => rw [hi] at h; cases h
  obtain ⟨t', ht'⟩ := h'
  obtain ⟨hr, ⟨ho, -⟩ | ⟨ho, hc, -⟩⟩ := issueMulwacc_next zoff x y s t' ht'
  · rw [execMulwacc_raises zoff x y s hr ho] at h
    exact ⟨hr, .inl ⟨ho, (Host.Outcome.next.inj h).symm⟩⟩
  · rw [execMulwacc_completes zoff x y s hr ho hc] at h
    exact ⟨hr, .inr ⟨ho, hc, (Host.Outcome.next.inj h).symm⟩⟩

/-! ### The client and the other instances -/

/-- Everything a client access to Z can do (20_memory.md R27). -/
theorem accessZ_next (j : Nat) (s t : State) (f : State → State) (h : accessZ j s f = .next t) :
    j < s.cfg.extWords ∧ s.racesAt j = false ∧ t = f s := by
  unfold accessZ at h
  split at h
  · cases h
  · split at h
    · cases h
    · rename_i h1 h2
      exact ⟨by omega, by simpa using h2, (Host.Outcome.next.inj h).symm⟩

/-- Everything a client read of a result register can do (10_state.md R9). -/
theorem readResult_next (o : Observation) (s t : State) (h : readResult o s = .next t) :
    s.resultWritten = true ∧ t = observe o s := by
  unfold readResult at h
  split at h
  · exact ⟨‹_›, (Host.Outcome.next.inj h).symm⟩
  · cases h

/-- Everything a command of another instance can do at its ISSUE (20_memory.md R28). -/
theorem otherIssue_next (t : Transaction) (s s' : State) (h : otherIssue t s = .next s') :
    s' = s ∨ ∃ zoff x y, decode t = .ok (.mulwacc zoff x y) ∧ outOfRange s.cfg zoff = false ∧
      s.racesWith zoff = false ∧ s' = putOthers (s.others ++ [{ zoff := zoff, x := x, y := y }]) s := by
  unfold otherIssue at h
  split at h
  · exact .inl (Host.Outcome.next.inj h).symm
  · rename_i zoff x y hd
    split at h
    · exact .inl (Host.Outcome.next.inj h).symm
    · split at h
      · cases h
      · rename_i h1 h2
        exact .inr ⟨zoff, x, y, hd, by simpa using h1, by simpa using h2, (Host.Outcome.next.inj h).symm⟩

/-- Everything the COMPLETE of another instance can do. -/
theorem otherComplete_cases (k : Nat) (s : State) : otherComplete k s = s ∨
    ∃ o, s.others[k]? = some o ∧
      otherComplete k s = putOthers (s.others.eraseIdx k) (putZ (accumulate s.z o.zoff (clmul64 o.x o.y)) s) := by
  unfold otherComplete
  split
  · exact .inl rfl
  · exact .inr ⟨_, ‹_›, rfl⟩

/-! ### Offered commands -/

/-- Everything the dispatch of a command can do (60_exceptions.md R54). -/
theorem dispatchCommand_cases (run : Instr → State → Host.Outcome State Fault Refusal) (t : Transaction) (s : State) :
    (isMulwacc t.cmd = false ∧ dispatchCommand run t s = .next (raise .illegalCommand t.cmd s)) ∨
      (isMulwacc t.cmd = true ∧ dispatchCommand run t s = run (.mulwacc (zoffField t.cmd) t.x t.y) s) := by
  unfold dispatchCommand
  by_cases h : isMulwacc t.cmd = true
  · rw [decode_mulwacc t h]; exact .inr ⟨h, rfl⟩
  · obtain ⟨e, he⟩ := decode_illegal t (by simpa using h)
    rw [he]; exact .inl ⟨by simpa using h, rfl⟩

theorem offer_ready (run : Instr → State → Host.Outcome State Fault Refusal) (t : Transaction) (rest : List Event)
    (s : State) (h : s.cmdReady = true) : offer run t rest s = dispatchCommand run t (accept rest s) := by
  simp [offer, h]

theorem offer_busy (run : Instr → State → Host.Outcome State Fault Refusal) (t : Transaction) (rest : List Event)
    (s : State) (h : s.busy = true) : offer run t rest s = .next (tick s) := by
  simp [offer, State.cmdReady, h]

theorem offer_stuck (run : Instr → State → Host.Outcome State Fault Refusal) (t : Transaction) (rest : List Event)
    (s : State) (hb : s.busy = false) (hf : s.fault = true) : offer run t rest s = .refused .issueWhileBlocked := by
  simp [offer, State.cmdReady, hb, hf]

end Sys2Proof.Machine
end

