-- ==== Sys2Proof/Laws/PerInstr.lean ====
section
/-! SUPPORT. Statements about every instruction as syntax, one lemma per constructor. -/

/-- The encoder gives an assigned command word, with OP = 0b0001 and RSV = 0b00, and carries the operands unchanged
(30_encoding.md R33, R35, R36). -/
def Sys2Proof.Laws.EncodedWord.Statement (i : Sys2Proof.Instr) : Prop :=
  Sys2Proof.isMulwacc (Sys2Proof.encode i).cmd = true ∧
    match i with
    | .mulwacc zoff x y => Sys2Proof.zoffField (Sys2Proof.encode i).cmd = zoff ∧ (Sys2Proof.encode i).x = x ∧
        (Sys2Proof.encode i).y = y

theorem Sys2Proof.Laws.EncodedWord.mulwacc (zoff : BitVec 26) (x y : Sys2Proof.Word) :
    Sys2Proof.Laws.EncodedWord.Statement (.mulwacc zoff x y) :=
  ⟨Sys2Proof.isMulwacc_mulwaccWord zoff, Sys2Proof.zoffField_mulwaccWord zoff, rfl, rfl⟩
end

