-- ==== Sys2Proof/Laws/Product.lean ====
section
/-! SUPPORT. The small lemmas of products and of the datapath's parts (00_scope.md R2, R7, 40_clmul.md R48, R49). -/

namespace Sys2Proof

theorem Product.low_bit (p : Product) (i : Nat) : p.low.getLsbD i = (decide (i < 64) && p.getLsbD i) := by
  unfold Product.low
  rw [BitVec.getLsbD_extractLsb', Nat.zero_add]

theorem Product.high_bit (p : Product) (i : Nat) : p.high.getLsbD i = (decide (i < 64) && p.getLsbD (64 + i)) := by
  unfold Product.high
  rw [BitVec.getLsbD_extractLsb']

/-- A product is its two words. -/
theorem Product.high_append_low (p : Product) : p.high ++ p.low = p := by
  apply BitVec.eq_of_getLsbD_eq
  intro i hi
  rw [BitVec.getLsbD_append, Product.low_bit, Product.high_bit]
  by_cases h : i < 64
  · simp [h]
  · have h1 : i - 64 < 64 := by omega
    have h2 : 64 + (i - 64) = i := by omega
    simp [h, h1, h2]

/-- Two products with the same words are the same. -/
theorem Product.ext_words (p q : Product) (hl : p.low = q.low) (hh : p.high = q.high) : p = q := by
  rw [← p.high_append_low, ← q.high_append_low, hl, hh]

@[simp] theorem Product.low_xor (p q : Product) : (p ^^^ q).low = p.low ^^^ q.low := by
  apply BitVec.eq_of_getLsbD_eq
  intro i hi
  rw [BitVec.getLsbD_xor, Product.low_bit, Product.low_bit, Product.low_bit, BitVec.getLsbD_xor]
  simp only [hi, decide_true, Bool.true_and]

@[simp] theorem Product.high_xor (p q : Product) : (p ^^^ q).high = p.high ^^^ q.high := by
  apply BitVec.eq_of_getLsbD_eq
  intro i hi
  rw [BitVec.getLsbD_xor, Product.high_bit, Product.high_bit, Product.high_bit, BitVec.getLsbD_xor]
  simp only [hi, decide_true, Bool.true_and]

namespace Machine

@[simp] theorem clmulUpTo_zero (a b : Word) : clmulUpTo a b 0 = 0 := rfl

theorem clmulUpTo_succ (a b : Word) (n : Nat) :
    clmulUpTo a b (n + 1) = clmulUpTo a b n ^^^ (if a.getLsbD n then b.setWidth 128 <<< n else 0) := rfl

@[simp] theorem coefficientUpTo_zero (a b : Word) (k : Nat) : coefficientUpTo a b k 0 = false := rfl

theorem coefficientUpTo_succ (a b : Word) (k n : Nat) : coefficientUpTo a b k (n + 1) =
    (coefficientUpTo a b k n ^^ (decide (n ≤ k) && a.getLsbD n && b.getLsbD (k - n))) := rfl

@[simp] theorem windowPass_zero (u : Vector Word 16) (x : Word) (acc : Word × Word) : windowPass u x 0 acc = acc := rfl

theorem windowPass_succ (u : Vector Word 16) (x : Word) (n : Nat) (acc : Word × Word) :
    windowPass u x (n + 1) acc = windowPass u x n (windowStep u x (4 * n) acc) := rfl

end Machine

end Sys2Proof
end

