-- ==== Sys2Proof/Laws/Step.lean ====
section
/-! SUPPORT. What a step can do, said once: the cases of `step`, and the induction over a run. -/

namespace Sys2Proof.Machine

/-- The ways a step of a legal machine reaches a next state, each with its guards. -/
inductive StepCase (s : State) : State → Prop where
  /-- a cycle passes and the agenda stays: nothing left, a wait or an offered command while busy -/
  | hold (h : s.agenda = [] ∨ s.busy = true) : StepCase s (tick s)
  /-- a cycle passes -/
  | cycle (rest : List Event) (h : s.agenda = .cycle :: rest) : StepCase s (tick (proceed rest s))
  /-- a wait that is over -/
  | waited (rest : List Event) (h : s.agenda = .wait :: rest) (hb : s.busy = false) : StepCase s (proceed rest s)
  /-- an accepted command whose word is illegal -/
  | illegal (t : Transaction) (rest : List Event) (h : s.agenda = .exec t :: rest ∨ s.agenda = .issue t :: rest)
      (hr : s.cmdReady = true) (hm : isMulwacc t.cmd = false) :
      StepCase s (raise .illegalCommand t.cmd (accept rest s))
  /-- an accepted MULWACC whose offset is out of range -/
  | range (t : Transaction) (rest : List Event) (h : s.agenda = .exec t :: rest ∨ s.agenda = .issue t :: rest)
      (hr : s.cmdReady = true) (hm : isMulwacc t.cmd = true) (ho : outOfRange s.cfg (zoffField t.cmd) = true) :
      StepCase s (raise .offsetRange t.cmd (accept rest s))
  /-- a MULWACC put in flight -/
  | issue (t : Transaction) (rest : List Event) (h : s.agenda = .issue t :: rest) (hr : s.cmdReady = true)
      (hm : isMulwacc t.cmd = true) (ho : outOfRange s.cfg (zoffField t.cmd) = false)
      (hc : s.racesWith (zoffField t.cmd) = false) : StepCase s (latch t (accept rest s))
  /-- a MULWACC as one atomic step -/
  | exec (t : Transaction) (rest : List Event) (h : s.agenda = .exec t :: rest) (hr : s.cmdReady = true)
      (hm : isMulwacc t.cmd = true) (ho : outOfRange s.cfg (zoffField t.cmd) = false)
      (hc : s.racesWith (zoffField t.cmd) = false) : StepCase s (complete (latch t (accept rest s)))
  /-- a read of the client -/
  | read (e : Event) (o : Observation) (rest : List Event) (h : s.agenda = e :: rest)
      (he : (∃ j, e = .readZ j ∧ j < s.cfg.extWords ∧ s.racesAt j = false ∧ o = .zWord j (s.z.readWord j)) ∨
        (e = .readPLo ∧ s.resultWritten = true ∧ o = .pLo s.pLo) ∨
        (e = .readPHi ∧ s.resultWritten = true ∧ o = .pHi s.pHi) ∨
        (e = .readStatus ∧ o = .status s.status) ∨ (e = .readFaultCmd ∧ o = .faultCmd s.faultCmd)) :
      StepCase s (observe o (proceed rest s))
  /-- a write of the client -/
  | writeZ (j : Nat) (v : Word) (rest : List Event) (h : s.agenda = .writeZ j v :: rest) (hj : j < s.cfg.extWords)
      (hc : s.racesAt j = false) : StepCase s (putZ (s.z.writeWord j v) (proceed rest s))
  /-- reset -/
  | reset (rest : List Event) (h : s.agenda = .reset :: rest) : StepCase s (resetBlock (proceed rest s))
  /-- another instance does something that does not touch Z or its windows -/
  | otherIdle (e : Event) (rest : List Event) (h : s.agenda = e :: rest)
      (he : (∃ t, e = .otherIssue t) ∨ (∃ k, e = .otherComplete k)) : StepCase s (proceed rest s)
  /-- another instance puts a command in flight -/
  | otherIssue (t : Transaction) (rest : List Event) (zoff : BitVec 26) (x y : Word)
      (h : s.agenda = .otherIssue t :: rest) (hd : decode t = .ok (.mulwacc zoff x y))
      (ho : outOfRange s.cfg zoff = false) (hc : s.racesWith zoff = false) :
      StepCase s (putOthers (s.others ++ [{ zoff := zoff, x := x, y := y }]) (proceed rest s))
  /-- another instance completes a command -/
  | otherComplete (k : Nat) (rest : List Event) (o : OtherCommand) (h : s.agenda = .otherComplete k :: rest)
      (ho : s.others[k]? = some o) :
      StepCase s (putOthers (s.others.eraseIdx k) (putZ (accumulate s.z o.zoff (clmul64 o.x o.y)) (proceed rest s)))
  /-- another instance abandons a command -/
  | otherAbandon (k : Nat) (rest : List Event) (h : s.agenda = .otherAbandon k :: rest) :
      StepCase s (putOthers (s.others.eraseIdx k) (proceed rest s))

/-- A step runs in a legal configuration only (60_exceptions.md R59). -/
theorem step_legal (s : State) (h : s.cfg.legal = true) : step s = nextEvent s := by
  simp [step, h]

/-- An offered command that reaches a next state. -/
theorem offer_next (run : Instr → State → Host.Outcome State Fault Refusal) (t : Transaction) (rest : List Event)
    (s s' : State) (h : offer run t rest s = .next s') :
    (s.busy = true ∧ s' = tick s) ∨
      (s.cmdReady = true ∧ ((isMulwacc t.cmd = false ∧ s' = raise .illegalCommand t.cmd (accept rest s)) ∨
        (isMulwacc t.cmd = true ∧ run (.mulwacc (zoffField t.cmd) t.x t.y) (accept rest s) = .next s'))) := by
  by_cases hr : s.cmdReady = true
  · rw [offer_ready run t rest s hr] at h
    refine .inr ⟨hr, ?_⟩
    rcases dispatchCommand_cases run t (accept rest s) with ⟨hm, he⟩ | ⟨hm, he⟩
    · rw [he] at h; exact .inl ⟨hm, (Host.Outcome.next.inj h).symm⟩
    · rw [he] at h; exact .inr ⟨hm, h⟩
  · by_cases hb : s.busy = true
    · rw [offer_busy run t rest s hb] at h
      exact .inl ⟨hb, (Host.Outcome.next.inj h).symm⟩
    · have hf : s.fault = true := by
        simp only [cmdReady_iff, not_and, Bool.not_eq_true] at hr hb
        simpa using hr hb
      rw [offer_stuck run t rest s (by simpa using hb) hf] at h
      cases h

/-- The transaction of a MULWACC word is the encoding of what it decodes to. -/
theorem encode_fields (t : Transaction) (h : isMulwacc t.cmd = true) :
    encode (.mulwacc (zoffField t.cmd) t.x t.y) = t := by
  simp only [encode, mulwaccWord_zoffField _ h]

/-- Everything a step can do. -/
theorem step_cases (s s' : State) (h : step s = .next s') : s.cfg.legal = true ∧ StepCase s s' := by
  unfold step at h
  split at h
  case isFalse => cases h
  case isTrue hl =>
  refine ⟨hl, ?_⟩
  unfold nextEvent at h
  split at h
  · rename_i ha
    obtain rfl := Host.Outcome.next.inj h
    exact .hold (.inl ha)
  · rename_i e rest ha
    cases e with
    | exec t =>
      rcases offer_next exec t rest s s' h with ⟨hb, rfl⟩ | ⟨hr, ⟨hm, rfl⟩ | ⟨hm, hx⟩⟩
      · exact .hold (.inr hb)
      · exact .illegal t rest (.inl ha) hr hm
      · obtain ⟨-, ⟨ho, rfl⟩ | ⟨ho, hc, rfl⟩⟩ := execMulwacc_next _ _ _ _ _ hx
        · rw [mulwaccWord_zoffField _ hm]
          exact .range t rest (.inl ha) hr hm ho
        · rw [encode_fields t hm]
          exact .exec t rest ha hr hm ho hc
    | issue t =>
      rcases offer_next issueInstr t rest s s' h with ⟨hb, rfl⟩ | ⟨hr, ⟨hm, rfl⟩ | ⟨hm, hx⟩⟩
      · exact .hold (.inr hb)
      · exact .illegal t rest (.inr ha) hr hm
      · obtain ⟨-, ⟨ho, rfl⟩ | ⟨ho, hc, rfl⟩⟩ := issueMulwacc_next _ _ _ _ _ hx
        · rw [mulwaccWord_zoffField _ hm]
          exact .range t rest (.inr ha) hr hm ho
        · rw [encode_fields t hm]
          exact .issue t rest ha hr hm ho hc
    | cycle =>
      obtain rfl := Host.Outcome.next.inj h
      exact .cycle rest ha
    | wait =>
      obtain rfl := Host.Outcome.next.inj h
      split
      · exact .hold (.inr ‹_›)
      · exact .waited rest ha (by simpa using ‹¬ s.busy = true›)
    | readZ j =>
      obtain ⟨hj, hc, rfl⟩ := accessZ_next _ _ _ _ h
      exact .read (.readZ j) _ rest ha (.inl ⟨j, rfl, hj, hc, rfl⟩)
    | writeZ j v =>
      obtain ⟨hj, hc, rfl⟩ := accessZ_next j (proceed rest s) s' (fun s => putZ (s.z.writeWord j v) s) h
      exact .writeZ j v rest ha hj hc
    | readPLo =>
      obtain ⟨hw, rfl⟩ := readResult_next _ _ _ h
      exact .read .readPLo _ rest ha (.inr (.inl ⟨rfl, hw, rfl⟩))
    | readPHi =>
      obtain ⟨hw, rfl⟩ := readResult_next _ _ _ h
      exact .read .readPHi _ rest ha (.inr (.inr (.inl ⟨rfl, hw, rfl⟩)))
    | readStatus =>
      obtain rfl := Host.Outcome.next.inj h
      exact .read .readStatus _ rest ha (.inr (.inr (.inr (.inl ⟨rfl, rfl⟩))))
    | readFaultCmd =>
      obtain rfl := Host.Outcome.next.inj h
      exact .read .readFaultCmd _ rest ha (.inr (.inr (.inr (.inr ⟨rfl, rfl⟩))))
    | reset =>
      obtain rfl := Host.Outcome.next.inj h
      exact .reset rest ha
    | otherIssue t =>
      rcases otherIssue_next t (proceed rest s) s' h with rfl | ⟨zoff, x, y, hd, ho, hc, rfl⟩
      · exact .otherIdle _ rest ha (.inl ⟨t, rfl⟩)
      · exact .otherIssue t rest zoff x y ha hd ho hc
    | otherComplete k =>
      obtain rfl := Host.Outcome.next.inj h
      rcases otherComplete_cases k (proceed rest s) with he | ⟨o, ho, he⟩
      · rw [he]; exact .otherIdle _ rest ha (.inr ⟨k, rfl⟩)
      · rw [he]; exact .otherComplete k rest o ha ho
    | otherAbandon k =>
      obtain rfl := Host.Outcome.next.inj h
      exact .otherAbandon k rest ha

/-- One step of any machine's run, as the interface defines it. -/
theorem core_run_succ (M : Host.Core) (n : Nat) (s : M.State) : M.run (n + 1) s =
    match M.step s with
    | .next s' => M.run n s'
    | .fault r => .fault r
    | .refused r => .refused r := rfl

/-- The run of statements is the host's run of this machine. -/
theorem run_eq_core (n : Nat) (s : State) : run n s = Host.Core.run Sys2Proof.core n s := by
  induction n generalizing s with
  | zero => rfl
  | succ n ih =>
    have h := core_run_succ Sys2Proof.core n s
    cases hx : step s with
    | next s' =>
      have hx' : Sys2Proof.core.step s = .next s' := hx
      rw [hx'] at h
      simp only [run, hx]
      exact (ih s').trans h.symm
    | fault r =>
      have hx' : Sys2Proof.core.step s = .fault r := hx
      rw [hx'] at h
      simp only [run, hx]
      exact h.symm
    | refused r =>
      have hx' : Sys2Proof.core.step s = .refused r := hx
      rw [hx'] at h
      simp only [run, hx]
      exact h.symm

/-- A run of no steps. -/
@[simp] theorem run_zero (s : State) : run 0 s = .next s := rfl

/-- A run goes on from the next state of its first step. -/
theorem run_next (n : Nat) (s s' : State) (h : step s = .next s') : run (n + 1) s = run n s' := by
  rw [run, h]

/-- A run ends at a fault. -/
theorem run_fault (n : Nat) (s : State) (r : Fault) (h : step s = .fault r) : run (n + 1) s = .fault r := by
  rw [run, h]

/-- A run ends where there is no step. -/
theorem run_refused (n : Nat) (s : State) (r : Refusal) (h : step s = .refused r) : run (n + 1) s = .refused r := by
  rw [run, h]

/-- A run of one step. -/
theorem run_one (s : State) : run 1 s = step s := by
  rw [run]
  cases step s <;> rfl

/-- The last step of a run. -/
theorem run_succ (n : Nat) (s t : State) (h : run n s = .next t) : run (n + 1) s = step t := by
  induction n generalizing s with
  | zero => obtain rfl := Host.Outcome.next.inj h; exact run_one s
  | succ n ih =>
    cases hx : step s with
    | next s' => rw [run_next n s s' hx] at h; rw [run_next (n + 1) s s' hx]; exact ih s' h
    | fault r => rw [run_fault n s r hx] at h; cases h
    | refused r => rw [run_refused n s r hx] at h; cases h

/-- What a run keeps, packaged once: a property that every step keeps holds at the end of every run from a state
that has it. -/
theorem run_keeps (P : State → Prop) (hstep : ∀ s t, P s → step s = .next t → P t) (n : Nat) (s t : State)
    (hs : P s) (h : run n s = .next t) : P t := by
  induction n generalizing s with
  | zero => exact Host.Outcome.next.inj h ▸ hs
  | succ n ih =>
    cases hx : step s with
    | next s' => rw [run_next n s s' hx] at h; exact ih s' (hstep s s' hs hx) h
    | fault r => rw [run_fault n s r hx] at h; cases h
    | refused r => rw [run_refused n s r hx] at h; cases h

/-! ### The end of a run -/

/-- When a run is at its end (70_reset_and_hazards.md R75). -/
theorem successfulEnd_iff (s : State) :
    s.successfulEnd = true ↔ commandsLeft s.agenda = false ∧ s.busy = false ∧ s.fault = false := by
  simp [State.successfulEnd, and_assoc]

@[simp] theorem commandsLeft_nil : commandsLeft [] = false := rfl

@[simp] theorem commandsLeft_cons (e : Event) (rest : List Event) :
    commandsLeft (e :: rest) = (e.isCommand || commandsLeft rest) := rfl

/-- No command of a sequence races when no window is open but those of other instances on disjoint words. -/
theorem noRace_iff (s : State) (zoff : BitVec 26) (x y : Word) :
    noRace s (.mulwacc zoff x y) = true ↔ s.racesWith zoff = false := by
  simp [noRace]

/-! ### What a step does with the head of the agenda -/

theorem step_exec (s : State) (t : Transaction) (rest : List Event) (hl : s.cfg.legal = true)
    (ha : s.agenda = .exec t :: rest) : step s = offer exec t rest s := by
  simp only [step_legal s hl, nextEvent, ha, takeEvent]

theorem step_issue (s : State) (t : Transaction) (rest : List Event) (hl : s.cfg.legal = true)
    (ha : s.agenda = .issue t :: rest) : step s = offer issueInstr t rest s := by
  simp only [step_legal s hl, nextEvent, ha, takeEvent]

theorem step_event (s : State) (e : Event) (rest : List Event) (hl : s.cfg.legal = true)
    (ha : s.agenda = e :: rest) : step s = takeEvent e rest s := by
  simp only [step_legal s hl, nextEvent, ha]

theorem step_nothing (s : State) (hl : s.cfg.legal = true) (ha : s.agenda = []) : step s = .next (tick s) := by
  simp only [step_legal s hl, nextEvent, ha]

end Sys2Proof.Machine
end

