-- ==== Sys2Proof/Tests/Slice0.lean ====
section
/-! SUPPORT. Tests against the spec's own words and vectors (95_test_vectors.md), the WellFormed smoke, and a witness for the hypotheses of each statement. -/

namespace Sys2Proof.Tests

open Sys2Proof.Machine

/-! ### Decoding: words written out from 30_encoding.md R33, R36 to R38 -/

theorem test_decode_mulwacc_example :
    decode ⟨0b00010000000000000000000000000001#32, 0x3, 0x5⟩ = .ok (.mulwacc 1 0x3 0x5) := by decide

theorem test_decode_mulwacc_largest_zoff :
    decode ⟨0b00010011111111111111111111111111#32, 0, 1⟩ = .ok (.mulwacc 0x3ffffff 0 1) := by decide

theorem test_decode_all_zero_is_reserved_op : decode ⟨0b00000000000000000000000000000000#32, 1, 1⟩ = .error .reservedOp := by
  decide

theorem test_decode_op_2_is_reserved_op : decode ⟨0b00100000000000000000000000000000#32, 1, 1⟩ = .error .reservedOp := by
  decide

theorem test_decode_rsv_1_is_reserved_rsv : decode ⟨0b00010100000000000000000000000000#32, 1, 1⟩ = .error .reservedRsv := by
  decide

theorem test_encode_example : encode (.mulwacc 1 0x3 0x5) = ⟨0x10000001#32, 0x3, 0x5⟩ := by decide

theorem test_table_word_carries_operands :
    decodeTableWord 160 (0x10000002 + 0x3 * 2 ^ 32 + 0x5 * 2 ^ 96) = some (.mulwacc 2 0x3 0x5) := by decide

/-- 30_encoding.md R38, the example line. -/
theorem test_assemble_example : assembleText "mulwacc 1, 0x3, 0x5" = some ⟨0x10000001#32, 0x3, 0x5⟩ := by decide

/-- 30_encoding.md R38: `.cmd` for a reserved word (95_test_vectors.md M9). -/
theorem test_assemble_raw : assembleText ".cmd 0x14000000, 0x1, 0x1" = some ⟨0x14000000#32, 0x1, 0x1⟩ := by decide

/-! ### WellFormed: an ill-formed term for each check -/

/-- 95_test_vectors.md E8 and 60_exceptions.md R59: r = 4 and r = 0 fail, r = 13 succeeds, and so does not 2^31 + 1. -/
theorem test_ring_check : ringLegal 4 = false ∧ ringLegal 0 = false ∧ ringLegal (2 ^ 31 + 1) = false ∧
    ringLegal 13 = true := by decide

theorem test_ring_word_check : ringLegalWord 4 = false ∧ ringLegalWord 0x80000001#32 = false ∧
    ringLegalWord 13 = true := by decide

theorem test_ext_words_check : extWordsLegal 3 = false ∧ extWordsLegal 0 = false ∧
    extWordsLegal (2 ^ 26 + 2) = false ∧ extWordsLegal (2 ^ 26) = true := by decide

theorem test_config_check : Config.legal ⟨13, 0⟩ = false ∧ Config.legal ⟨12, 1⟩ = false ∧
    Config.legal ⟨13, 1⟩ = true := by decide

theorem test_line_check : (Line.mulwacc (2 ^ 26) 0 0).wellFormed = false ∧
    (Line.mulwacc 0 (2 ^ 64) 0).wellFormed = false ∧ (Line.mulwacc 0 0 (2 ^ 64)).wellFormed = false ∧
    (Line.raw (2 ^ 32) 0 0).wellFormed = false ∧ (Line.mulwacc (2 ^ 26 - 1) 0 0).wellFormed = true := by decide

/-! ### The product: 95_test_vectors.md L2.1 -/

theorem test_product_V9 : clmul64 0x8000000000000000 0xffffffffffffffff = 0x7fffffffffffffff8000000000000000 := by
  decide

theorem test_product_V18 : clmul64 0x0123456789abcdef 0xfedcba9876543210 = 0x00e038d8688850b040a0789828c810f0 := by
  decide

/-- V15, the bits the correction pass restores. -/
theorem test_datapath_V15 : datapath 0xe000000000000000 0xe000000000000000 = 0x54000000000000000000000000000000 := by
  decide

theorem test_datapath_V18 : datapath 0x0123456789abcdef 0xfedcba9876543210 = 0x00e038d8688850b040a0789828c810f0 := by
  decide

/-! ### One step: 95_test_vectors.md L2.2, L2.3 -/

/-- A block with EXT_WORDS = 2 (r = 13) and LATENCY = 3, Z of two words. -/
def small (w0 w1 : Word) (agenda : List Event) : State :=
  State.launch ⟨13, 3⟩ (Memory.writeWord (Memory.writeWord [] 0 w0) 1 w1) agenda

/-- A block with EXT_WORDS = 4 (r = 127) and LATENCY = 2, Z of zeros. -/
def wide (agenda : List Event) : State := State.launch ⟨127, 2⟩ [] agenda

/-- M1. -/
theorem test_mulwacc_M1 : (match step (small 0x1111111111111111 0x2222222222222222 [.exec ⟨0x10000000#32, 0x3, 0x5⟩]) with
    | .next t => decide (t.z.readWord 0 = 0x111111111111111e ∧ t.z.readWord 1 = 0x2222222222222222 ∧ t.pLo = 0xf ∧
        t.pHi = 0 ∧ t.status = 0)
    | _ => false) = true := by decide +kernel

/-- M6. -/
theorem test_mulwacc_M6 : (match step (small 0 0 [.exec ⟨0x10000001#32, 0x1, 0x1⟩]) with
    | .next t => decide (t.z = [] ∧ t.status = 0x00000021#32 ∧ t.faultCmd = 0x10000001#32 ∧ t.resultWritten = false)
    | _ => false) = true := by decide

/-- M11: ILLEGAL_COMMAND wins over the range check. -/
theorem test_illegal_M11 : (match step (small 0 0 [.exec ⟨0x23ffffff#32, 0x1, 0x1⟩]) with
    | .next t => decide (t.z = [] ∧ t.status = 0x00000011#32 ∧ t.faultCmd = 0x23ffffff#32)
    | _ => false) = true := by decide

/-- The state right after ISSUE of `mulwacc 1, 0x3, 0x5` on the wide block. -/
def inFlight (agenda : List Event) : State := latch ⟨0x10000001#32, 0x3, 0x5⟩ (wide agenda)

/-- The state after OFFSET_RANGE of M7. -/
def faulted (agenda : List Event) : State := raise .offsetRange 0x10000003#32 (wide agenda)

/-- The state after that command completed. -/
def completed (agenda : List Event) : State := complete (inFlight agenda)

/-- S1: a command offered in the fault state is not accepted. -/
theorem test_stuck_S1 : step (faulted [.issue ⟨0x10000000#32, 1, 1⟩]) = .refused .issueWhileBlocked := by rfl

/-- S2: reset leaves the fault state. -/
theorem test_reset_S2 : (match step (faulted [.reset]) with
    | .next t => decide (t.status = 0 ∧ t.faultCmd = 0 ∧ t.resultWritten = false ∧ t.cmdReady = true)
    | _ => false) = true := by decide

/-- S4: a client write to a target word in flight. -/
theorem test_race_S4 : step (inFlight [.writeZ 2 7]) = .fault .raceZ := by rfl

/-- S5: a client write to another word. -/
theorem test_no_race_S5 : (match step (inFlight [.writeZ 3 7]) with
    | .next t => decide (t.z.readWord 3 = 7 ∧ t.status = 0x00000002#32)
    | _ => false) = true := by decide

/-- 60_exceptions.md R58: UNWRITTEN_RESULT. -/
theorem test_unwritten_result : step (wide [.readPLo]) = .fault .unwrittenResult := by rfl

/-- The first instruction after reset (log 14). -/
theorem test_first_instruction_runs : (match step (State.reset.withFetchWord 32 0x10000000) with
    | .next t => decide (t.resultWritten = true ∧ t.pos = 1)
    | _ => false) = true := by decide

/-! ### Witnesses: a concrete state and operands for the hypotheses of each statement -/

theorem witness_CommandWordIsMulwaccByOpAndRsv :
    (∃ (s : State) (t : Transaction) (rest : List Event), s.cfg.legal = true ∧ s.cmdReady = true ∧
      isMulwacc t.cmd = false ∧ s.agenda = .issue t :: rest) ∧
    ∃ (s : State) (t : Transaction) (rest : List Event), s.cfg.legal = true ∧ s.cmdReady = true ∧
      isMulwacc t.cmd = true ∧ s.cfg.extWords - 2 < (zoffField t.cmd).toNat ∧ s.agenda = .exec t :: rest :=
  ⟨⟨wide [.issue ⟨0x0FFFFFFF#32, 1, 1⟩], ⟨0x0FFFFFFF#32, 1, 1⟩, [], by decide⟩,
    ⟨wide [.exec ⟨0x10000003#32, 1, 1⟩], ⟨0x10000003#32, 1, 1⟩, [], by decide⟩⟩

theorem witness_AssemblerIsInverseOfListing : ∃ zoff : Nat, 2 ^ 26 ≤ zoff := ⟨67108864, by decide⟩

theorem witness_ProductBitsAreConvolution : ∃ k, k < 128 ∧ 126 ≤ k := ⟨127, by decide⟩

theorem witness_ProductOfZeroOneAndPowers : ∃ i, i < 64 ∧ 63 ≤ i := ⟨63, by decide⟩

theorem witness_ProductDegreeIsSumOfDegrees : ∃ a b : Word, a ≠ 0 ∧ b ≠ 0 ∧ a.toNat.log2 + b.toNat.log2 ≤ 63 :=
  ⟨0x8000000000000000, 1, by decide⟩

theorem witness_SquareSpreadsBits : ∃ i, i < 64 ∧ 63 ≤ i := ⟨63, by decide⟩

theorem witness_CombTableEntriesAreLowProducts :
    (∃ i : Fin 16, 2 ≤ i.val ∧ i.val % 2 = 0) ∧ (∃ i : Fin 16, i.val % 2 = 1) := ⟨⟨14, by decide⟩, ⟨1, by decide⟩⟩

theorem witness_CorrectionRestoresLostBits : ∃ j, j < 64 ∧ 63 ≤ j := ⟨63, by decide⟩

/-- MULWACC completes: at the highest legal offset, with other windows open elsewhere. -/
theorem witness_MulwaccCompletes : ∃ (zoff : BitVec 26) (s : State), s.cmdReady = true ∧
    outOfRange s.cfg zoff = false ∧ s.racesWith zoff = false ∧ s.z.wf = true :=
  ⟨2, putOthers [⟨0, 1, 1⟩] (wide []), by decide⟩

theorem witness_CompletedCommandMakesFourAccesses : ∃ (s u : State) (t : Transaction) (rest : List Event),
    step s = .next u ∧ (s.agenda = .exec t :: rest ∨ s.agenda = .issue t :: rest) ∧ s.fault = false ∧ u.fault = true :=
  ⟨wide [.issue ⟨0x10000003#32, 1, 1⟩], _, ⟨0x10000003#32, 1, 1⟩, [], rfl, .inr rfl, by decide, by decide⟩

theorem witness_MulwaccAddsShiftedPolynomial : ∃ (s t : State), s.z.wf = true ∧ s.fault = false ∧
    exec (.mulwacc 2 0x3 0x5) s = .next t ∧ t.fault = false :=
  ⟨wide [], _, by decide, by decide, rfl, by decide⟩

theorem witness_MulwaccTwiceRestoresZ : (∃ (s : State), s.cmdReady = true ∧ outOfRange s.cfg 0 = false ∧
    s.racesWith 0 = false ∧ s.z.wf = true ∧ clmul64 3 5 ≠ 0) ∧ ∃ (s t : State), clientReadZ 3 s = .next t :=
  ⟨⟨wide [], by decide⟩, ⟨wide [], _, rfl⟩⟩

/-- The lowest offset out of range. -/
theorem witness_MulwaccOutOfRangeFaults : ∃ (zoff : BitVec 26) (s : State), s.cfg.legal = true ∧ s.cmdReady = true ∧
    s.cfg.extWords - 2 < zoff.toNat := ⟨3, wide [], by decide⟩

/-- Busy, faulted, and racing with a window one word above. -/
theorem witness_MulwaccBlockedOrRacing : (∃ s : State, s.busy = true) ∧ (∃ s : State, s.fault = true) ∧
    ∃ s : State, s.cmdReady = true ∧ outOfRange s.cfg 1 = false ∧ ∃ o ∈ s.others, overlap 1 o.zoff = true :=
  ⟨⟨inFlight [], by decide⟩, ⟨faulted [], by decide⟩, ⟨putOthers [⟨2, 1, 1⟩] (wide []), by decide⟩⟩

theorem witness_CommandSequenceXorsProductsIntoZ : ∃ (is : List Instr) (s : State), s.cfg.legal = true ∧
    s.cmdReady = true ∧ s.z.wf = true ∧ (∀ i ∈ is, inRange s.cfg i = true ∧ noRace s i = true) ∧ 2 ≤ is.length ∧
      s.others ≠ [] :=
  ⟨[.mulwacc 2 3 5, .mulwacc 2 7 9], putOthers [⟨0, 1, 1⟩] (wide []), by decide⟩

theorem witness_StepRunsDecodedCommand :
    (∃ (s : State) (t : Transaction) (i : Instr), s.cfg.legal = true ∧ s.cmdReady = true ∧ decode t = .ok i ∧
      s.agenda = .exec t :: []) ∧
    (∃ (s : State) (t : Transaction) (i : Instr), s.cfg.legal = true ∧ s.cmdReady = true ∧ decode t = .ok i ∧
      s.agenda = .issue t :: []) ∧
    ∃ (s : State) (i : Instr), s.cfg.legal = true ∧ s.cmdReady = true ∧ decodeTableWord 32 0x10000000 = some i :=
  ⟨⟨wide [.exec ⟨0x10000001#32, 3, 5⟩], ⟨0x10000001#32, 3, 5⟩, .mulwacc 1 3 5, by decide⟩,
    ⟨wide [.issue ⟨0x10000001#32, 3, 5⟩], ⟨0x10000001#32, 3, 5⟩, .mulwacc 1 3 5, by decide⟩,
    ⟨State.reset, .mulwacc 0 0 0, by decide⟩⟩

/-- An illegal word whose low bits are out of range, and a MULWACC out of range. -/
theorem witness_IssueFaultsInPriorityOrder :
    (∃ (s : State) (t : Transaction), s.cfg.legal = true ∧ s.cmdReady = true ∧ s.agenda = .exec t :: [] ∧
      isMulwacc t.cmd = false ∧ s.cfg.extWords - 2 < (zoffField t.cmd).toNat) ∧
    ∃ (s : State) (t : Transaction), s.cfg.legal = true ∧ s.cmdReady = true ∧ s.agenda = .issue t :: [] ∧
      isMulwacc t.cmd = true ∧ s.cfg.extWords - 2 < (zoffField t.cmd).toNat :=
  ⟨⟨wide [.exec ⟨0x23ffffff#32, 1, 1⟩], ⟨0x23ffffff#32, 1, 1⟩, by decide⟩,
    ⟨wide [.issue ⟨0x10000003#32, 1, 1⟩], ⟨0x10000003#32, 1, 1⟩, by decide⟩⟩

/-- FAULT set by an entry, cleared by a reset, and held in a step that is neither. -/
theorem witness_FaultBitSetByEntryClearedByReset :
    (∃ s t : State, step s = .next t ∧ s.fault = false ∧ t.fault = true) ∧
    (∃ s t : State, step s = .next t ∧ s.fault = true ∧ t.fault = false) ∧
    ∃ s t : State, step s = .next t ∧ s.fault = true ∧ t.fault = true :=
  ⟨⟨wide [.exec ⟨0, 1, 1⟩], _, rfl, by decide, by decide⟩, ⟨faulted [.reset], _, rfl, by decide, by decide⟩,
    ⟨faulted [.readStatus], _, rfl, by decide, by decide⟩⟩

theorem witness_FirstFaultIsKeptUntilReset : ∃ (n : Nat) (s t : State), s.fault = true ∧ s.busy = false ∧
    Event.reset ∉ s.agenda ∧ run n s = .next t ∧ 2 ≤ n :=
  ⟨2, faulted [.readStatus, .writeZ 0 1], _, by decide, by decide, by decide, rfl, by decide⟩

theorem witness_FaultsArePrecise : ∃ (is : List Instr) (bad : Transaction) (rest : List Event) (s : State),
    s.cfg.legal = true ∧ s.cmdReady = true ∧ s.z.wf = true ∧
      (∀ i ∈ is, inRange s.cfg i = true ∧ noRace s i = true) ∧ outOfRange s.cfg (zoffField bad.cmd) = true ∧ isMulwacc bad.cmd = true ∧
      rest ≠ [] ∧ Event.reset ∉ rest :=
  ⟨[.mulwacc 2 3 5], ⟨0x10000003#32, 1, 1⟩, [.exec ⟨0x10000000#32, 1, 1⟩], wide [], by decide⟩

/-- A reset of an idle, of a busy and of a faulted block. -/
theorem witness_ResetLeavesSpecState :
    (∃ s : State, s.cfg.legal = true ∧ s.agenda = .reset :: [] ∧ s.busy = true) ∧
    ∃ s : State, s.cfg.legal = true ∧ s.agenda = .reset :: [] ∧ s.fault = true :=
  ⟨⟨inFlight [.reset], by decide⟩, ⟨faulted [.reset], by decide⟩⟩

/-- The last cycle before COMPLETE. -/
theorem witness_ResetInFlightAbandonsCommand : ∃ (s : State) (t : Transaction) (k : Nat) (rest : List Event),
    s.cfg.legal = true ∧ s.cmdReady = true ∧ isMulwacc t.cmd = true ∧ outOfRange s.cfg (zoffField t.cmd) = false ∧
      s.racesWith (zoffField t.cmd) = false ∧ k < s.cfg.latency ∧
      s.agenda = .issue t :: (List.replicate k .cycle ++ .reset :: rest) ∧ k + 1 = s.cfg.latency :=
  ⟨wide [.issue ⟨0x10000002#32, 3, 5⟩, .cycle, .reset], ⟨0x10000002#32, 3, 5⟩, 1, [], by decide⟩

theorem witness_IssueLatchesAndSetsBusy : ∃ (s : State) (t : Transaction) (rest : List Event), s.cfg.legal = true ∧
    s.cmdReady = true ∧ isMulwacc t.cmd = true ∧ outOfRange s.cfg (zoffField t.cmd) = false ∧
      s.racesWith (zoffField t.cmd) = false ∧ s.agenda = .issue t :: rest :=
  ⟨wide [.issue ⟨0x10000002#32, 3, 5⟩], ⟨0x10000002#32, 3, 5⟩, [], by decide⟩

theorem witness_AcceptedCommandCompletesAfterLatency : ∃ (s : State) (t : Transaction) (k : Nat),
    s.cfg.legal = true ∧ s.cmdReady = true ∧ isMulwacc t.cmd = true ∧ outOfRange s.cfg (zoffField t.cmd) = false ∧
      s.racesWith (zoffField t.cmd) = false ∧ s.agenda = [.issue t] ∧ 1 ≤ k ∧ k ≤ s.cfg.latency :=
  ⟨wide [.issue ⟨0x10000002#32, 3, 5⟩], ⟨0x10000002#32, 3, 5⟩, 2, by decide⟩

/-- The invariant holds of a block with a command in flight. -/
theorem inFlight_invariant (agenda : List Event) : MachineInvariant (inFlight agenda) where
  config := by simp only [inFlight, wide, latch_cfg, launch_cfg]; decide
  status := by simp only [inFlight, wide, latch_status, launch_status]; decide
  faultCmd := by
    simp only [FaultCmdLegal, State.fault, State.cause, inFlight, wide, latch_status, latch_faultCmd, latch_cfg,
      launch_status, launch_faultCmd, launch_cfg]
    decide
  window := by
    simp only [WindowLegal, State.busy, State.ifZoff, inFlight, wide, latch_status, latch_ifCmd, latch_remaining,
      latch_cfg, launch_status, launch_cfg]
    decide
  windows := by
    simp only [WindowsLegal, inFlight, wide, latch_windows, latch_cfg, launch_others, launch_cfg, List.map_nil]
    exact ⟨fun w hw => by rw [List.mem_singleton.1 hw]; decide, List.pairwise_singleton _ _⟩
  buffer := by simp only [BufferLegal, inFlight, wide, latch_z, latch_cfg, launch_z, launch_cfg]; decide
  result := by
    intro h
    simp only [inFlight, wide, latch_resultWritten, launch_resultWritten] at h
    cases h

theorem witness_OfferedCommandWaitsForBusy :
    (∃ (s : State) (e : Event) (k : Nat), MachineInvariant s ∧ s.busy = true ∧ s.agenda = e :: [] ∧
      offersCommand [e] = true ∧ k < s.remaining) ∧
    ∃ s : State, MachineInvariant s ∧ s.busy = true ∧ s.agenda = .wait :: [] :=
  ⟨⟨inFlight [.exec ⟨0x10000000#32, 1, 1⟩], _, 1, inFlight_invariant _, by decide, rfl, by decide, by decide⟩,
    ⟨inFlight [.wait], inFlight_invariant _, by decide, rfl⟩⟩

/-- A stuck, a faulted, a busy and a successfully ended block, the last with reads left and with nothing left. -/
theorem witness_StuckIsNoSuccessfulEnd :
    (∃ s : State, s.cfg.legal = true ∧ s.stuck = true) ∧ (∃ s : State, s.cfg.legal = true ∧ s.fault = true) ∧
      (∃ s : State, s.cfg.legal = true ∧ s.busy = true) ∧
      (∃ s t : State, s.cfg.legal = true ∧ s.successfulEnd = true ∧ s.agenda ≠ [] ∧ step s = .next t) ∧
      ∃ s : State, s.cfg.legal = true ∧ s.successfulEnd = true ∧ s.agenda = [] :=
  ⟨⟨faulted [.issue ⟨0x10000000#32, 1, 1⟩], by decide⟩, ⟨faulted [], by decide⟩, ⟨inFlight [], by decide⟩,
    ⟨completed [.readPLo, .writeZ 0 0], _, by decide, by decide, by decide, rfl⟩, ⟨completed [], by decide⟩⟩

theorem witness_SplitAndMergedCommandAgree : ∃ s : State, s.cfg.legal = true ∧ s.cmdReady = true :=
  ⟨wide [], by decide⟩

theorem witness_ClientWriteInWindowCommutes : ∃ (s : State) (t : Transaction) (j : Nat), s.cfg.legal = true ∧
    s.cmdReady = true ∧ s.z.wf = true ∧ isMulwacc t.cmd = true ∧ outOfRange s.cfg (zoffField t.cmd) = false ∧
      s.racesWith (zoffField t.cmd) = false ∧ j < s.cfg.extWords ∧ s.racesAt j = false ∧
      targets (zoffField t.cmd) j = false :=
  ⟨wide [], ⟨0x10000001#32, 3, 5⟩, 3, by decide⟩

/-- Both target words, and a word that is none. -/
theorem witness_ClientAccessInWindow :
    (∃ s : State, s.cfg.legal = true ∧ s.busy = true ∧ 1 < s.cfg.extWords ∧ targets s.ifZoff 1 = true ∧
      s.agenda = .readZ 1 :: []) ∧
    (∃ s : State, s.cfg.legal = true ∧ s.busy = true ∧ 2 < s.cfg.extWords ∧ targets s.ifZoff 2 = true ∧
      s.agenda = .writeZ 2 7 :: []) ∧
    (∃ s : State, s.cfg.legal = true ∧ s.busy = true ∧ 0 < s.cfg.extWords ∧ targets s.ifZoff 0 = false ∧
      (∀ o ∈ s.others, targets o.zoff 0 = false) ∧ s.agenda = .readZ 0 :: []) ∧
    ∃ s : State, s.cfg.legal = true ∧ s.busy = true ∧ 3 < s.cfg.extWords ∧ targets s.ifZoff 3 = false ∧
      (∀ o ∈ s.others, targets o.zoff 3 = false) ∧ s.agenda = .writeZ 3 7 :: [] :=
  ⟨⟨inFlight [.readZ 1], by decide⟩, ⟨inFlight [.writeZ 2 7], by decide⟩, ⟨inFlight [.readZ 0], by decide⟩,
    ⟨inFlight [.writeZ 3 7], by decide⟩⟩

/-- The highest word of Z and the lowest index that is none. -/
theorem witness_ClientReadsAndWritesWordsOfZ :
    (∃ s : State, s.cfg.legal = true ∧ s.racesAt 3 = false ∧ s.z.wf = true ∧ 3 < s.cfg.extWords ∧
      s.agenda = .readZ 3 :: []) ∧
    (∃ s : State, s.cfg.legal = true ∧ s.racesAt 3 = false ∧ s.z.wf = true ∧ 3 < s.cfg.extWords ∧
      s.agenda = .writeZ 3 7 :: []) ∧
    ∃ s : State, s.cfg.legal = true ∧ s.racesAt 4 = false ∧ s.z.wf = true ∧ s.cfg.extWords ≤ 4 ∧
      (s.agenda = .readZ 4 :: [] ∨ s.agenda = .writeZ 4 7 :: []) :=
  ⟨⟨wide [.readZ 3], by decide⟩, ⟨wide [.writeZ 3 7], by decide⟩, ⟨wide [.readZ 4], by decide⟩⟩

theorem witness_ClientReadsRegisters :
    (∃ s : State, s.cfg.legal = true ∧ s.resultWritten = false ∧ s.agenda = .readPHi :: []) ∧
    (∃ s : State, s.cfg.legal = true ∧ s.resultWritten = false ∧ s.busy = true ∧ s.agenda = .readPLo :: []) ∧
    (∃ s : State, s.cfg.legal = true ∧ s.resultWritten = true ∧ s.busy = true ∧ s.agenda = .readPLo :: []) ∧
    (∃ s : State, s.cfg.legal = true ∧ s.resultWritten = true ∧ s.agenda = .readPLo :: []) ∧
    (∃ s : State, s.cfg.legal = true ∧ s.resultWritten = true ∧ s.agenda = .readPHi :: []) ∧
    (∃ s : State, s.cfg.legal = true ∧ s.agenda = .readStatus :: []) ∧
    ∃ s : State, s.cfg.legal = true ∧ s.agenda = .readFaultCmd :: [] :=
  ⟨⟨wide [.readPHi], by decide⟩, ⟨inFlight [.readPLo], by decide⟩,
    ⟨latch ⟨0x10000002#32, 1, 1⟩ (completed [.readPLo]), by decide⟩, ⟨completed [.readPLo], by decide⟩, ⟨completed [.readPHi], by decide⟩,
    ⟨wide [.readStatus], by decide⟩, ⟨wide [.readFaultCmd], by decide⟩⟩

theorem witness_OverlappingInstancesRace :
    (∃ (s : State) (t : Transaction), s.cfg.legal = true ∧ isMulwacc t.cmd = true ∧
      outOfRange s.cfg (zoffField t.cmd) = false ∧ s.agenda = .otherIssue t :: [] ∧
      s.racesWith (zoffField t.cmd) = true) ∧
    (∃ (s : State) (t : Transaction), s.cfg.legal = true ∧ isMulwacc t.cmd = true ∧
      outOfRange s.cfg (zoffField t.cmd) = false ∧ s.agenda = .otherIssue t :: [] ∧
      s.racesWith (zoffField t.cmd) = false) ∧
    (∃ (s : State) (t : Transaction), s.cfg.legal = true ∧ isMulwacc t.cmd = true ∧
      outOfRange s.cfg (zoffField t.cmd) = false ∧ s.cmdReady = true ∧ s.agenda = .issue t :: [] ∧
      ∃ o ∈ s.others, overlap (zoffField t.cmd) o.zoff = true) ∧
    ∃ (s : State) (t : Transaction), s.cfg.legal = true ∧ isMulwacc t.cmd = true ∧
      outOfRange s.cfg (zoffField t.cmd) = false ∧ s.cmdReady = true ∧ s.agenda = .exec t :: [] ∧
      s.others ≠ [] ∧ ∀ o ∈ s.others, overlap (zoffField t.cmd) o.zoff = false :=
  ⟨⟨inFlight [.otherIssue ⟨0x10000002#32, 1, 1⟩], ⟨0x10000002#32, 1, 1⟩, by decide⟩,
    ⟨wide [.otherIssue ⟨0x10000002#32, 1, 1⟩], ⟨0x10000002#32, 1, 1⟩, by decide⟩,
    ⟨putOthers [⟨1, 1, 1⟩] (wide [.issue ⟨0x10000002#32, 1, 1⟩]), ⟨0x10000002#32, 1, 1⟩, by decide⟩,
    ⟨putOthers [⟨0, 1, 1⟩] (wide [.exec ⟨0x10000002#32, 1, 1⟩]), ⟨0x10000002#32, 1, 1⟩, by decide⟩⟩

theorem witness_OtherInstanceSharesOnlyZ : ∃ (s : State) (o : OtherCommand), s.cfg.legal = true ∧ s.z.wf = true ∧
    s.others[0]? = some o ∧ s.agenda = .otherComplete 0 :: [] :=
  ⟨putOthers [⟨2, 3, 5⟩] (wide [.otherComplete 0]), ⟨2, 3, 5⟩, by decide⟩

theorem witness_LaunchMeetsInvariant : ∃ s : State, build 13 1 [(8, 0x22#8)] [] = .ok s := ⟨_, rfl⟩

theorem witness_StepKeepsInvariant : ∃ s t : State, MachineInvariant s ∧ step s = .next t ∧ t.busy = true :=
  ⟨inFlight [.cycle], _, inFlight_invariant _, rfl, by decide⟩

theorem witness_StatusReadsOneOfFourWords : ∃ s : State, MachineInvariant s ∧ s.status = 0x00000002#32 :=
  ⟨inFlight [], inFlight_invariant _, by decide⟩

theorem witness_NoStepWritesConfiguration : ∃ s t : State, run 2 s = .next t :=
  ⟨inFlight [.cycle, .wait], _, rfl⟩

/-- A COMPLETE, a reset, and a step that is neither. -/
theorem witness_ResultsChangeOnlyAtCompleteOrReset :
    (∃ s t : State, step s = .next t ∧ t.resultWritten = true ∧ s.resultWritten = false) ∧
    (∃ s t : State, step s = .next t ∧ t.resultWritten = false ∧ s.resultWritten = true) ∧
    ∃ s t : State, step s = .next t ∧ t.resultWritten = true ∧ s.resultWritten = true :=
  ⟨⟨wide [.exec ⟨0x10000000#32, 3, 5⟩], _, rfl, by decide, by decide⟩,
    ⟨completed [.reset], _, rfl, by decide, by decide⟩, ⟨completed [.readPLo], _, rfl, by decide, by decide⟩⟩

/-- Each of the four writers: the last cycle of a window, a merged command, the client, and another instance. -/
theorem witness_ZChangesOnlyAtItsWriters :
    (∃ s t : State, s.z.wf = true ∧ step s = .next t ∧ t.z.readWord 1 ≠ s.z.readWord 1 ∧ s.agenda = .cycle :: [] ∧
      s.busy = true ∧ t.busy = false) ∧
    (∃ (s t : State) (w : Transaction), s.z.wf = true ∧ step s = .next t ∧ t.z.readWord 0 ≠ s.z.readWord 0 ∧
      s.agenda = .exec w :: []) ∧
    (∃ s t : State, s.z.wf = true ∧ step s = .next t ∧ t.z.readWord 3 ≠ s.z.readWord 3 ∧
      s.agenda = .writeZ 3 7 :: []) ∧
    ∃ s t : State, s.z.wf = true ∧ step s = .next t ∧ t.z.readWord 2 ≠ s.z.readWord 2 ∧
      s.agenda = .otherComplete 0 :: [] :=
  ⟨⟨shorten (inFlight [.cycle]), _, by decide, rfl, by decide +kernel, rfl, by decide, by decide⟩,
    ⟨wide [.exec ⟨0x10000000#32, 3, 5⟩], _, _, by decide, rfl, by decide +kernel, rfl⟩,
    ⟨wide [.writeZ 3 7], _, by decide, rfl, by decide +kernel, rfl⟩,
    ⟨putOthers [⟨2, 3, 5⟩] (wide [.otherComplete 0]), _, by decide, rfl, by decide +kernel, rfl⟩⟩

/-- A command that faults, a reset of a block that took a command, a command that waits, and a read. -/
theorem witness_PositionCountsAcceptedCommands :
    (∃ (s t : State) (w : Transaction), step s = .next t ∧ s.agenda = .exec w :: [] ∧ s.cmdReady = true ∧
      t.fault = true) ∧
    (∃ s t : State, step s = .next t ∧ s.agenda = .reset :: [] ∧ s.pos ≠ 0) ∧
    (∃ s t : State, step s = .next t ∧ s.cmdReady = false ∧ (∀ rest, s.agenda ≠ .reset :: rest) ∧ s.pos ≠ 0) ∧
    ∃ s t : State, step s = .next t ∧ offersCommand s.agenda = false ∧ (∀ rest, s.agenda ≠ .reset :: rest) ∧
      s.pos ≠ 0 :=
  ⟨⟨wide [.exec ⟨0, 3, 5⟩], _, _, rfl, rfl, by decide, by decide⟩,
    ⟨latch ⟨0x10000001#32, 3, 5⟩ (accept [.reset] (wide [])), _, rfl, rfl, by decide⟩,
    ⟨latch ⟨0x10000001#32, 3, 5⟩ (accept [.exec ⟨0x10000000#32, 1, 1⟩] (wide [])), _, rfl, by decide, nofun,
      by decide⟩,
    ⟨accept [.readStatus] (wide []), _, rfl, by decide, nofun, by decide⟩⟩

/-- Two states that look alike and differ in the operands and in Z. -/
theorem witness_RunsDoNotDependOnSecrets : ∃ s t : State, s.publicView = t.publicView ∧ s ≠ t :=
  ⟨small 1 2 [.exec ⟨0x10000000#32, 3, 5⟩], small 3 4 [.exec ⟨0x10000000#32, 7, 9⟩], rfl,
    fun h => absurd (congrArg State.agenda h) (by decide)⟩

theorem witness_LengthOfZFollowsFromR : (∃ c : Config, c.legal = true) ∧
    ∃ n latency c, 0 < latency ∧ Config.ofExtWords n latency = some c :=
  ⟨⟨⟨1, 1⟩, by decide⟩, ⟨2 ^ 26, 1, ⟨2 ^ 31 - 1, 1⟩, by decide, by decide⟩⟩

theorem witness_IllegalParameterBuildsNoMachine : (∃ s : State, ringLegal s.cfg.r = false) ∧
    (∃ n, n % 2 = 1) ∧ (∃ n, n < 2) ∧ ∃ n, 2 ^ 26 < n :=
  ⟨⟨State.launch ⟨4, 1⟩ [] [], by decide⟩, ⟨3, by decide⟩, ⟨0, by decide⟩, ⟨2 ^ 26 + 2, by decide⟩⟩

end Sys2Proof.Tests
end

section
/-! The bits of the product, and its form as an XOR of shifted copies (00_scope.md R7). -/

namespace Sys2Proof.Machine

/-- One summand of R7's second form, bit by bit: the copy of b shifted by n, present when a[n] = 1. -/
theorem getLsbD_shiftedCopy (a b : Word) (n k : Nat) (hk : k < 128) :
    (if a.getLsbD n then b.setWidth 128 <<< n else 0).getLsbD k =
      (decide (n ≤ k) && a.getLsbD n && b.getLsbD (k - n)) := by
  have hkn : k - n < 128 := by omega
  by_cases ha : a.getLsbD n = true
  · simp only [ha, if_true, BitVec.getLsbD_shiftLeft, BitVec.getLsbD_setWidth, hk, hkn, decide_true, Bool.true_and,
      Bool.and_true, ← Nat.not_lt, decide_not]
  · simp [ha]

theorem getLsbD_clmulUpTo (a b : Word) (n k : Nat) (hk : k < 128) :
    (clmulUpTo a b n).getLsbD k = coefficientUpTo a b k n := by
  induction n with
  | zero => simp
  | succ n ih =>
    rw [clmulUpTo_succ, coefficientUpTo_succ, BitVec.getLsbD_xor, ih, getLsbD_shiftedCopy a b n k hk]

theorem getLsbD_clmul64 (a b : Word) (k : Nat) (hk : k < 128) :
    (clmul64 a b).getLsbD k = coefficient a b k :=
  getLsbD_clmulUpTo a b 64 k hk

/-- The recursion over all i below n adds what a fold over the set bits of a alone adds. -/
theorem clmulUpTo_eq_foldl_setBits (a b : Word) (n : Nat) :
    clmulUpTo a b n =
      ((List.range n).filter fun i => a.getLsbD i).foldl (fun p i => p ^^^ (b.setWidth 128 <<< i)) (0 : Product) := by
  induction n with
  | zero => rfl
  | succ n ih =>
    rw [clmulUpTo_succ, ih, List.range_succ, List.filter_append, List.foldl_append]
    by_cases ha : a.getLsbD n = true
    · simp [ha]
    · simp [ha]

/-- Settles O5: both forms of R7 follow by induction on the number of bits of a taken in. -/
theorem productBitsAreConvolution : Obligations.ProductBitsAreConvolution := by
  unfold Obligations.ProductBitsAreConvolution
  intro a b
  exact ⟨getLsbD_clmul64 a b, clmulUpTo_eq_foldl_setBits a b 64⟩

end Sys2Proof.Machine
end

section
/-! What the checks of a configuration accept, and the length of Z (00_scope.md R3, 60_exceptions.md R59). -/

namespace Sys2Proof

theorem ringLegal_iff (r : Nat) : ringLegal r = true ↔ r % 2 = 1 ∧ 0 < r ∧ r < 2 ^ 31 := by
  simp [ringLegal, and_assoc]

theorem extWordsLegal_iff (n : Nat) : extWordsLegal n = true ↔ n % 2 = 0 ∧ 2 ≤ n ∧ n ≤ 2 ^ 26 := by
  simp [extWordsLegal, and_assoc]

theorem Config.legal_iff (c : Config) : c.legal = true ↔ ringLegal c.r = true ∧ 0 < c.latency := by
  simp [Config.legal]

theorem Config.extWords_eq (c : Config) : c.extWords = 2 * ((c.r + 63) / 64) := rfl

theorem Config.ofR_eq_some_iff (r latency : Nat) (c : Config) :
    Config.ofR r latency = some c ↔ ringLegal r = true ∧ 0 < latency ∧ c = ⟨r, latency⟩ := by
  simp [Config.ofR, Config.legal_iff, and_assoc, eq_comm (a := c)]

/-- An r of 32 n − 1 is legal for every legal n, so the second check in `ofExtWords` never refuses for r. -/
theorem ringLegal_of_extWordsLegal (n : Nat) (h : extWordsLegal n = true) : ringLegal (32 * n - 1) = true := by
  rw [extWordsLegal_iff] at h
  rw [ringLegal_iff]
  omega

theorem Config.ofExtWords_eq_some_iff (n latency : Nat) (c : Config) :
    Config.ofExtWords n latency = some c ↔ extWordsLegal n = true ∧ 0 < latency ∧ c = ⟨32 * n - 1, latency⟩ := by
  unfold Config.ofExtWords
  split
  case isTrue h => simp [Config.ofR_eq_some_iff, ringLegal_of_extWordsLegal n h, h]
  case isFalse h => simp [h]

/-- EXT_WORDS of a legal configuration: even, in range, and twice r/64 rounded up. -/
theorem Config.extWords_bounds (c : Config) (h : c.legal = true) :
    c.extWords % 2 = 0 ∧ 2 ≤ c.extWords ∧ c.extWords ≤ 2 ^ 26 ∧
      c.r ≤ 64 * (c.extWords / 2) ∧ 64 * (c.extWords / 2 - 1) < c.r := by
  obtain ⟨hr, -⟩ := c.legal_iff.mp h
  obtain ⟨-, hpos, hlt⟩ := (ringLegal_iff c.r).mp hr
  rw [Config.extWords_eq]
  omega

theorem Config.exists_ofExtWords_iff (n latency : Nat) (hl : 0 < latency) :
    (∃ c, Config.ofExtWords n latency = some c) ↔ extWordsLegal n = true := by
  simp [Config.ofExtWords_eq_some_iff, hl]

theorem Config.ofExtWords_extWords {n latency : Nat} {c : Config} (h : Config.ofExtWords n latency = some c) :
    c.extWords = n := by
  obtain ⟨hn, -, rfl⟩ := (Config.ofExtWords_eq_some_iff n latency c).mp h
  obtain ⟨heven, hlow, -⟩ := (extWordsLegal_iff n).mp hn
  simp only [Config.extWords_eq]
  omega

theorem Config.ofExtWords_legal {n latency : Nat} {c : Config} (h : Config.ofExtWords n latency = some c) :
    c.legal = true := by
  obtain ⟨hn, hl, rfl⟩ := (Config.ofExtWords_eq_some_iff n latency c).mp h
  exact (Config.legal_iff _).mpr ⟨ringLegal_of_extWordsLegal n hn, hl⟩

/-- Settles O46: the bounds by arithmetic on ⌈r/64⌉, the worked values by evaluation, and EXT_WORDS given directly
through what `ofExtWords` answers. -/
theorem lengthOfZFollowsFromR : Obligations.LengthOfZFollowsFromR := by
  unfold Obligations.LengthOfZFollowsFromR
  refine ⟨Config.extWords_bounds, ?workedValues, ?givenDirectly⟩
  case workedValues =>
    intro latency
    norm_num [Config.extWords_eq]
  case givenDirectly =>
    intro n latency hl
    refine ⟨?_, fun c h => ⟨Config.ofExtWords_extWords h, Config.ofExtWords_legal h⟩⟩
    rw [Config.exists_ofExtWords_iff n latency hl, extWordsLegal_iff]

end Sys2Proof
end

section
/-! What each operation keeps of the machine's invariant, and the invariant over a step (10_state.md R10 to R18). -/

namespace Sys2Proof.Machine

/-! ### STATUS (10_state.md R10 to R14) -/

theorem statusLegal_setBusy (st : BitVec 32) (h : StatusLegal st) (hf : faultBit st = false) :
    StatusLegal (setBusy st) := by
  obtain ⟨hreserved, hcode, hcause, -⟩ := h
  exact ⟨reserved_setBusy st hreserved, by simpa using hcode, by simpa using hcause, by simp [hf]⟩

theorem statusLegal_clearBusy (st : BitVec 32) (h : StatusLegal st) : StatusLegal (clearBusy st) := by
  obtain ⟨hreserved, hcode, hcause, -⟩ := h
  exact ⟨reserved_clearBusy st hreserved, by simpa using hcode, by simpa using hcause, by simp⟩

theorem Cause.code_legal (c : Cause) : c.code = 0 ∨ c.code = 1 ∨ c.code = 2 := by
  cases c <;> decide

theorem Cause.code_inj {c d : Cause} (h : c.code = d.code) : c = d := by
  revert h
  cases c <;> cases d <;> decide

theorem statusLegal_setFault (c : Cause) (st : BitVec 32) (h : StatusLegal st) (hb : busyBit st = false)
    (hc : c ≠ .none) : StatusLegal (setFault c st) := by
  obtain ⟨hreserved, -, -, -⟩ := h
  have hcode : c.code ≠ 0 := fun he => hc (Cause.code_inj he)
  exact ⟨reserved_setFault c st hreserved, by simpa using c.code_legal, by simpa using hcode, by simp [hb]⟩

/-! ### The windows on Z (20_memory.md R27, R28) -/

theorem windowsLegal_of_sublist (s t : State) (hcfg : t.cfg = s.cfg) (hsub : t.windows.Sublist s.windows)
    (h : WindowsLegal s) : WindowsLegal t := by
  obtain ⟨hrange, hdisjoint⟩ := h
  exact ⟨fun w hw => hcfg ▸ hrange w (hsub.subset hw), hdisjoint.sublist hsub⟩

/-- A command that is in range and races with no open window opens its own, wherever the list of windows holds it. -/
theorem windowsLegal_of_perm_cons (s t : State) (zoff : BitVec 26) (hcfg : t.cfg = s.cfg)
    (hperm : t.windows.Perm (zoff :: s.windows)) (ho : outOfRange s.cfg zoff = false)
    (hc : s.racesWith zoff = false) (h : WindowsLegal s) : WindowsLegal t := by
  obtain ⟨hrange, hdisjoint⟩ := h
  refine ⟨fun w hw => ?range, ?disjoint⟩
  case range =>
    rw [hcfg]
    rcases List.mem_cons.mp (hperm.mem_iff.mp hw) with rfl | hw
    · exact ho
    · exact hrange w hw
  case disjoint =>
    rw [hperm.pairwise_iff fun hab => (overlap_comm _ _).trans hab]
    exact List.pairwise_cons.mpr ⟨(racesWith_false_iff s zoff).mp hc, hdisjoint⟩

/-! ### The product (40_clmul.md R41 item 1) -/

theorem coefficientUpTo_127 (a b : Word) (n : Nat) (hn : n ≤ 64) : coefficientUpTo a b 127 n = false := by
  induction n with
  | zero => rfl
  | succ n ih =>
    have hb : b.getLsbD (127 - n) = false := BitVec.getLsbD_of_ge b _ (by omega)
    rw [coefficientUpTo_succ, ih (by omega), hb, Bool.and_false, Bool.xor_false]

/-- P[127] = 0. -/
theorem msb_high_clmul64 (a b : Word) : (clmul64 a b).high.msb = false := by
  rw [BitVec.msb_eq_getLsbD_last, Product.high_bit, getLsbD_clmul64 a b _ (by norm_num)]
  exact Bool.and_eq_false_iff.mpr (.inr (coefficientUpTo_127 a b 64 (by omega)))

/-! ### The invariant after each operation -/

theorem invariant_proceed (rest : List Event) (s : State) (h : MachineInvariant s) :
    MachineInvariant (proceed rest s) := ⟨h.config, h.status, h.faultCmd, h.window, h.windows, h.buffer, h.result⟩

theorem invariant_accept (rest : List Event) (s : State) (h : MachineInvariant s) :
    MachineInvariant (accept rest s) := ⟨h.config, h.status, h.faultCmd, h.window, h.windows, h.buffer, h.result⟩

theorem invariant_observe (o : Observation) (s : State) (h : MachineInvariant s) :
    MachineInvariant (observe o s) := ⟨h.config, h.status, h.faultCmd, h.window, h.windows, h.buffer, h.result⟩

theorem invariant_putZ (z : Memory) (s : State) (h : MachineInvariant s) (hwf : z.wf = true)
    (hin : z.inside s.cfg.extWords = true) : MachineInvariant (putZ z s) :=
  ⟨h.config, h.status, h.faultCmd, h.window, h.windows, ⟨hwf, hin⟩, h.result⟩

theorem invariant_putOthers (os : List OtherCommand) (s : State) (h : MachineInvariant s)
    (hw : WindowsLegal (putOthers os s)) : MachineInvariant (putOthers os s) :=
  ⟨h.config, h.status, h.faultCmd, h.window, hw, h.buffer, h.result⟩

/-- Another block's accumulation into Z. -/
theorem invariant_putOtherProduct (o : OtherCommand) (p : Product) (s : State) (h : MachineInvariant s)
    (ho : o ∈ s.others) : MachineInvariant (putZ (accumulate s.z o.zoff p) s) := by
  obtain ⟨hwf, hin⟩ := h.buffer
  have hmem : o.zoff ∈ s.windows := List.mem_append_right _ (List.mem_map_of_mem ho)
  have hrange := (outOfRange_false_iff _ _).mp (h.windows.1 o.zoff hmem)
  exact invariant_putZ _ s h (wf_accumulate _ _ _ hwf) (inside_accumulate _ _ _ _ hin hrange)

/-- Another block's window closes. -/
theorem invariant_eraseOther (k : Nat) (s : State) (h : MachineInvariant s) :
    MachineInvariant (putOthers (s.others.eraseIdx k) s) := by
  refine invariant_putOthers _ s h (windowsLegal_of_sublist s _ rfl ?_ h.windows)
  rw [putOthers_windows]
  exact ((s.others.eraseIdx_sublist k).map (·.zoff)).append_left s.ownWindow

/-- Another block's window opens. -/
theorem invariant_addOther (o : OtherCommand) (s : State) (h : MachineInvariant s)
    (ho : outOfRange s.cfg o.zoff = false) (hc : s.racesWith o.zoff = false) :
    MachineInvariant (putOthers (s.others ++ [o]) s) := by
  refine invariant_putOthers _ s h (windowsLegal_of_perm_cons s _ o.zoff rfl ?_ ho hc h.windows)
  rw [putOthers_windows, List.map_append, ← List.append_assoc]
  exact List.perm_append_singleton o.zoff s.windows

theorem invariant_raise (c : Cause) (cmd : BitVec 32) (s : State) (h : MachineInvariant s) (hb : s.busy = false)
    (hc : c ≠ .none) (hillegal : c = .illegalCommand → isMulwacc cmd = false)
    (hrange : c = .offsetRange → isMulwacc cmd = true ∧ outOfRange s.cfg (zoffField cmd) = true) :
    MachineInvariant (raise c cmd s) where
  config := h.config
  status := statusLegal_setFault c s.status h.status hb hc
  faultCmd := by
    rw [FaultCmdLegal, raise_cause]
    exact ⟨by simp, fun he => hillegal (Cause.code_inj he), fun he => hrange (Cause.code_inj he)⟩
  window := by simpa [WindowLegal, hb] using h.window
  windows := by simpa [WindowsLegal] using h.windows
  buffer := h.buffer
  result := by simpa [ResultLegal] using h.result

theorem invariant_latch (t : Transaction) (s : State) (h : MachineInvariant s) (hr : s.cmdReady = true)
    (hm : isMulwacc t.cmd = true) (ho : outOfRange s.cfg (zoffField t.cmd) = false)
    (hc : s.racesWith (zoffField t.cmd) = false) : MachineInvariant (latch t s) := by
  obtain ⟨hb, hf⟩ := (cmdReady_iff s).mp hr
  have hpos : 0 < s.cfg.latency := (s.cfg.legal_iff.mp h.config).2
  exact {
    config := h.config
    status := statusLegal_setBusy s.status h.status hf
    faultCmd := by simpa [FaultCmdLegal] using h.faultCmd
    window := ⟨fun _ => ⟨hm, ho, hpos, le_refl _⟩, by simp⟩
    windows := windowsLegal_of_perm_cons s _ _ rfl (by rw [latch_windows, windows_idle s hb]) ho hc h.windows
    buffer := h.buffer
    result := fun hw => ⟨(h.result hw).1, by simp⟩ }

theorem invariant_complete (s : State) (h : MachineInvariant s) (hb : s.busy = true) :
    MachineInvariant (complete s) := by
  obtain ⟨-, ho, -, -⟩ := h.window.1 hb
  obtain ⟨hwf, hin⟩ := h.buffer
  exact {
    config := by simpa using h.config
    status := by simpa only [complete_status] using statusLegal_clearBusy s.status h.status
    faultCmd := by simpa [FaultCmdLegal] using h.faultCmd
    window := by simp [WindowLegal]
    windows := by
      refine windowsLegal_of_sublist s _ (complete_cfg s) ?_ h.windows
      rw [complete_windows]
      exact List.sublist_append_right s.ownWindow _
    buffer := by
      rw [BufferLegal, complete_z, complete_cfg]
      exact ⟨wf_accumulate _ _ _ hwf, inside_accumulate _ _ _ _ hin ((outOfRange_false_iff _ _).mp ho)⟩
    result := by simp [ResultLegal, msb_high_clmul64, Product.high_append_low] }

theorem invariant_shorten (s : State) (h : MachineInvariant s) (hb : s.busy = true) (hr : 1 < s.remaining) :
    MachineInvariant (shorten s) := by
  obtain ⟨hm, ho, -, hle⟩ := h.window.1 hb
  exact {
    config := h.config
    status := h.status
    faultCmd := h.faultCmd
    window := ⟨fun _ => ⟨hm, ho, Nat.sub_pos_of_lt hr, (Nat.sub_le _ _).trans hle⟩, by simp [hb]⟩
    windows := h.windows
    buffer := h.buffer
    result := h.result }

theorem invariant_tick (s : State) (h : MachineInvariant s) : MachineInvariant (tick s) := by
  rcases tick_cases s with ⟨-, e⟩ | ⟨hb, -, e⟩ | ⟨hb, hr, e⟩ <;> rw [e]
  · exact h
  · exact invariant_complete s h hb
  · exact invariant_shorten s h hb hr

/-- A block in its reset state meets the invariant when its configuration, Z and the other blocks' windows do. -/
theorem invariant_of_resetState (s : State) (hcfg : s.cfg.legal = true) (hz : BufferLegal s) (hw : WindowsLegal s)
    (hst : s.status = 0#32) (hfc : s.faultCmd = 0#32) (hrem : s.remaining = 0) (hres : s.resultWritten = false) :
    MachineInvariant s where
  config := hcfg
  status := by rw [hst]; decide
  faultCmd := by
    have hcause : s.cause = 0 := by rw [State.cause, hst]; decide
    simp [FaultCmdLegal, hcause, hfc, Cause.code]
  window := by
    have hb : s.busy = false := by rw [State.busy, hst]; decide
    simp [WindowLegal, hb, hrem]
  windows := hw
  buffer := hz
  result := by simp [ResultLegal, hres]

theorem invariant_resetBlock (s : State) (h : MachineInvariant s) : MachineInvariant (resetBlock s) := by
  refine invariant_of_resetState _ h.config h.buffer ?_ rfl rfl rfl rfl
  refine windowsLegal_of_sublist s _ rfl ?_ h.windows
  rw [resetBlock_windows]
  exact List.sublist_append_right s.ownWindow _

theorem invariant_launch (c : Config) (z : Memory) (agenda : List Event) (hc : c.legal = true) (hwf : z.wf = true)
    (hin : z.inside c.extWords = true) : MachineInvariant (State.launch c z agenda) := by
  refine invariant_of_resetState _ hc ⟨hwf, hin⟩ ?_ rfl rfl rfl rfl
  have hb : (State.launch c z agenda).busy = false := by rw [State.busy, launch_status]; decide
  simp [WindowsLegal, windows_idle _ hb]

/-- Settles O39, by the cases of a step: each is a composition of operations that keep the invariant. -/
theorem stepKeepsInvariant : Obligations.StepKeepsInvariant := by
  unfold Obligations.StepKeepsInvariant
  intro s t hs hstep
  obtain ⟨-, hcase⟩ := step_cases s t hstep
  have hproceed (rest : List Event) := invariant_proceed rest s hs
  have haccept (rest : List Event) := invariant_accept rest s hs
  cases hcase with
  | hold => exact invariant_tick s hs
  | cycle rest => exact invariant_tick _ (hproceed rest)
  | waited rest => exact hproceed rest
  | illegal w rest _ hr hm =>
    obtain ⟨hb, -⟩ := (cmdReady_iff s).mp hr
    exact invariant_raise _ _ _ (haccept rest) hb (by decide) (fun _ => hm) (by simp)
  | range w rest _ hr hm ho =>
    obtain ⟨hb, -⟩ := (cmdReady_iff s).mp hr
    exact invariant_raise _ _ _ (haccept rest) hb (by decide) (by simp) (fun _ => ⟨hm, ho⟩)
  | issue w rest _ hr hm ho hc => exact invariant_latch w _ (haccept rest) hr hm ho hc
  | exec w rest _ hr hm ho hc =>
    exact invariant_complete _ (invariant_latch w _ (haccept rest) hr hm ho hc) (latch_busy _ _)
  | read _ o rest => exact invariant_observe o _ (hproceed rest)
  | writeZ j v rest _ hj =>
    obtain ⟨hwf, hin⟩ := hs.buffer
    exact invariant_putZ _ _ (hproceed rest) (wf_writeWord _ _ _ hwf) (inside_writeWord _ _ _ _ hin hj)
  | reset rest => exact invariant_resetBlock _ (hproceed rest)
  | otherIdle _ rest => exact hproceed rest
  | otherIssue _ rest zoff x y _ _ ho hc =>
    exact invariant_addOther ⟨zoff, x, y⟩ (proceed rest s) (hproceed rest) ho hc
  | otherComplete k rest o _ ho =>
    have hz := invariant_putOtherProduct o (clmul64 o.x o.y) _ (hproceed rest) (List.mem_of_getElem? ho)
    simpa only [putZ_others, proceed_others, proceed_z] using invariant_eraseOther k _ hz
  | otherAbandon k rest => exact invariant_eraseOther k (proceed rest s) (hproceed rest)

/-- Settles O38: a built machine is a launch of a legal configuration with a canonical Z inside EXT_WORDS. -/
theorem launchMeetsInvariant : Obligations.LaunchMeetsInvariant := by
  unfold Obligations.LaunchMeetsInvariant
  refine ⟨invariant_launch _ _ _ (by decide) (by decide) (by decide), ?_⟩
  intro r latency z agenda s h
  unfold build at h
  split at h
  · cases h
  · rename_i c hc
    obtain ⟨hr, hl, rfl⟩ := (Config.ofR_eq_some_iff r latency c).mp hc
    split at h
    · rename_i hz
      obtain ⟨hwf, hin⟩ := Bool.and_eq_true_iff.mp hz
      obtain rfl := Except.ok.inj h
      exact invariant_launch _ _ _ ((Config.legal_iff _).mpr ⟨hr, hl⟩) hwf hin
    · cases h

end Sys2Proof.Machine
end

section
/-! FAULT, the configuration, the results and the position over a step and over a run (10_state.md R8 to R19). -/

namespace Sys2Proof.Machine

/-! ### FAULT (10_state.md R11) -/

/-- Everything a step can do to FAULT: nothing, the fault entry of an accepted command, or a reset. -/
theorem step_fault_cases (s t : State) (h : step s = .next t) :
    t.fault = s.fault ∨
      (∃ (c : Cause) (w : Transaction) (rest : List Event), c ≠ .none ∧ s.cmdReady = true ∧
        (s.agenda = .exec w :: rest ∨ s.agenda = .issue w :: rest) ∧ t = raise c w.cmd (accept rest s)) ∨
      ∃ rest, s.agenda = .reset :: rest := by
  obtain ⟨-, hcase⟩ := step_cases s t h
  cases hcase with
  | illegal w rest ha hr => exact .inr (.inl ⟨_, w, rest, by decide, hr, ha, rfl⟩)
  | range w rest ha hr => exact .inr (.inl ⟨_, w, rest, by decide, hr, ha, rfl⟩)
  | reset rest ha => exact .inr (.inr ⟨rest, ha⟩)
  | _ => exact .inl (by simp)

theorem cmdReady_of_fault (s : State) (h : s.fault = true) : s.cmdReady = false := by
  simp [State.cmdReady, h]

/-! ### The position (10_state.md R19) -/

theorem offersCommand_of_command {w : Transaction} {agenda rest : List Event}
    (h : agenda = .exec w :: rest ∨ agenda = .issue w :: rest) :
      offersCommand agenda = true ∧ agenda.tail = rest := by
  rcases h with rfl | rfl <;> exact ⟨rfl, rfl⟩

/-- Everything a step can do to the position: count an accepted command, return to 0 at a reset, or nothing. -/
theorem step_pos_cases (s t : State) (h : step s = .next t) :
    (offersCommand s.agenda = true ∧ s.cmdReady = true ∧ t.agenda = s.agenda.tail ∧ t.pos = s.pos + 1) ∨
      (∃ rest, s.agenda = .reset :: rest ∧ t.pos = 0) ∨
      ((s.cmdReady = false ∨ offersCommand s.agenda = false) ∧ t.pos = s.pos) := by
  obtain ⟨-, hcase⟩ := step_cases s t h
  cases hcase with
  | hold ha =>
    refine .inr (.inr ⟨?_, tick_pos s⟩)
    rcases ha with ha | hb
    · exact .inr (by rw [ha]; rfl)
    · exact .inl (by simp [State.cmdReady, hb])
  | illegal w rest ha hr | range w rest ha hr =>
    obtain ⟨hoffers, htail⟩ := offersCommand_of_command ha
    exact .inl ⟨hoffers, hr, htail.symm, rfl⟩
  | issue w rest ha hr | exec w rest ha hr => exact .inl (by simp [ha, hr, offersCommand, Event.isCommand])
  | reset rest ha => exact .inr (.inl ⟨rest, ha, rfl⟩)
  | read e o rest ha he =>
    refine .inr (.inr ⟨.inr ?_, rfl⟩)
    rw [ha]
    rcases he with ⟨_, rfl, -⟩ | ⟨rfl, -⟩ | ⟨rfl, -⟩ | ⟨rfl, -⟩ | ⟨rfl, -⟩ <;> rfl
  | otherIdle e rest ha he =>
    refine .inr (.inr ⟨.inr ?_, rfl⟩)
    rw [ha]
    rcases he with ⟨_, rfl⟩ | ⟨_, rfl⟩ <;> rfl
  | cycle rest ha | waited rest ha | writeZ _ _ rest ha | otherIssue _ rest _ _ _ ha | otherComplete _ rest _ ha
  | otherAbandon _ rest ha => exact .inr (.inr ⟨.inr (by rw [ha]; rfl), by simp⟩)

/-- A reset that is next is taken, in a window too (70_reset_and_hazards.md R67). -/
theorem step_reset (s : State) (rest : List Event) (hl : s.cfg.legal = true) (ha : s.agenda = .reset :: rest) :
    step s = .next (resetBlock (proceed rest s)) := by
  rw [step_event s _ rest hl ha, takeEvent]

theorem step_next_legal (s t : State) (h : step s = .next t) : s.cfg.legal = true := (step_cases s t h).1

/-- Settles O44, by what a step does to the position. -/
theorem positionCountsAcceptedCommands : Obligations.PositionCountsAcceptedCommands := by
  unfold Obligations.PositionCountsAcceptedCommands
  intro s t h
  refine ⟨?accepted, ?reset, ?other⟩
  case reset =>
    intro rest ha
    rw [step_reset s rest (step_next_legal s t h) ha] at h
    obtain rfl := Host.Outcome.next.inj h
    rfl
  case accepted =>
    intro w rest ha hr
    obtain ⟨hoffers, htail⟩ := offersCommand_of_command ha
    rcases step_pos_cases s t h with ⟨-, -, hagenda, hpos⟩ | ⟨_, ha', -⟩ | ⟨hno, -⟩
    · exact ⟨hagenda.trans htail, hpos⟩
    · simp [ha', offersCommand, Event.isCommand] at hoffers
    · simp [hr, hoffers] at hno
  case other =>
    intro hno hreset
    rcases step_pos_cases s t h with ⟨hoffers, hr, -⟩ | ⟨rest, ha, -⟩ | ⟨-, hpos⟩
    · simp [hr, hoffers] at hno
    · exact absurd ha (hreset rest)
    · exact hpos

/-- Settles O22: FAULT by what a step does to it, acceptance by what a step does to the position. -/
theorem faultBitSetByEntryClearedByReset : Obligations.FaultBitSetByEntryClearedByReset := by
  unfold Obligations.FaultBitSetByEntryClearedByReset
  intro s
  refine ⟨?set, ?cleared, ?blocked⟩
  case set =>
    intro t h hs ht
    rcases step_fault_cases s t h with he | hraise | ⟨rest, ha⟩
    · simp [he, hs] at ht
    · exact hraise
    · rw [step_reset s rest (step_next_legal s t h) ha] at h
      obtain rfl := Host.Outcome.next.inj h
      simp at ht
  case cleared =>
    intro t h hs ht
    rcases step_fault_cases s t h with he | ⟨_, _, _, -, -, -, rfl⟩ | hreset
    · simp [he, hs] at ht
    · simp at ht
    · exact hreset
  case blocked =>
    intro hs
    refine ⟨cmdReady_of_fault s hs, fun t h => ?_⟩
    rcases step_pos_cases s t h with ⟨-, hr, -⟩ | ⟨_, -, hpos⟩ | ⟨-, hpos⟩
    · simp [cmdReady_of_fault s hs] at hr
    · omega
    · omega

/-! ### A faulted block (10_state.md R13, R15) -/

/-- t is s but for Z, the other blocks, what the client has read, and a part of the agenda that is done. -/
def OnlyWorldMoved (s t : State) : Prop :=
  ∃ z others reads agenda, agenda <:+ s.agenda ∧
    t = { s with z := z, others := others, reads := reads, agenda := agenda }

theorem OnlyWorldMoved.refl (s : State) : OnlyWorldMoved s s := ⟨_, _, _, _, List.suffix_refl _, rfl⟩

theorem OnlyWorldMoved.trans {s t u : State} (hst : OnlyWorldMoved s t) (htu : OnlyWorldMoved t u) :
    OnlyWorldMoved s u := by
  obtain ⟨_, _, _, _, hsuffix, rfl⟩ := hst
  obtain ⟨_, _, _, _, hsuffix', rfl⟩ := htu
  exact ⟨_, _, _, _, hsuffix'.trans hsuffix, rfl⟩

theorem OnlyWorldMoved.of_proceed {s : State} {e : Event} {rest : List Event} (h : s.agenda = e :: rest) :
    OnlyWorldMoved s (proceed rest s) := ⟨s.z, s.others, s.reads, rest, h ▸ List.suffix_cons e rest, rfl⟩

theorem OnlyWorldMoved.of_observe (o : Observation) (s : State) : OnlyWorldMoved s (observe o s) :=
  ⟨s.z, s.others, o :: s.reads, s.agenda, List.suffix_refl _, rfl⟩

theorem OnlyWorldMoved.of_putZ (z : Memory) (s : State) : OnlyWorldMoved s (putZ z s) :=
  ⟨z, s.others, s.reads, s.agenda, List.suffix_refl _, rfl⟩

theorem OnlyWorldMoved.of_putOthers (os : List OtherCommand) (s : State) : OnlyWorldMoved s (putOthers os s) :=
  ⟨s.z, os, s.reads, s.agenda, List.suffix_refl _, rfl⟩

/-- A block that is faulted and idle takes no part in a step, unless a reset is next (60_exceptions.md R56, R57). -/
theorem step_faulted (s t : State) (hf : s.fault = true) (hb : s.busy = false) (hno : Event.reset ∉ s.agenda)
    (h : step s = .next t) : OnlyWorldMoved s t := by
  have hblocked := cmdReady_of_fault s hf
  obtain ⟨-, hcase⟩ := step_cases s t h
  cases hcase with
  | hold => rw [tick_idle s hb]; exact .refl s
  | cycle rest ha => rw [tick_idle (proceed rest s) hb]; exact .of_proceed ha
  | illegal _ _ _ hr | range _ _ _ hr | issue _ _ _ hr | exec _ _ _ hr => simp [hblocked] at hr
  | reset rest ha => exact absurd (ha ▸ List.mem_cons_self) hno
  | waited rest ha | otherIdle _ rest ha => exact .of_proceed ha
  | read _ o rest ha => exact (OnlyWorldMoved.of_proceed ha).trans (.of_observe o _)
  | writeZ _ _ rest ha => exact (OnlyWorldMoved.of_proceed ha).trans (.of_putZ _ _)
  | otherIssue _ rest _ _ _ ha | otherAbandon _ rest ha =>
    exact (OnlyWorldMoved.of_proceed ha).trans (.of_putOthers _ _)
  | otherComplete _ rest _ ha => exact ((OnlyWorldMoved.of_proceed ha).trans (.of_putZ _ _)).trans (.of_putOthers _ _)

theorem run_faulted (n : Nat) (s t : State) (hf : s.fault = true) (hb : s.busy = false)
    (hno : Event.reset ∉ s.agenda) (h : run n s = .next t) : OnlyWorldMoved s t := by
  refine run_keeps (OnlyWorldMoved s) (fun u v hsu huv => hsu.trans ?_) n s t (.refl s) h
  obtain ⟨_, _, _, _, hsuffix, rfl⟩ := hsu
  exact step_faulted _ v hf hb (fun hmem => hno (hsuffix.subset hmem)) huv

/-- Settles O23: over a run without a reset a faulted block takes no part. -/
theorem firstFaultIsKeptUntilReset : Obligations.FirstFaultIsKeptUntilReset := by
  unfold Obligations.FirstFaultIsKeptUntilReset
  intro n s t hf hb hno h
  obtain ⟨_, _, _, _, -, rfl⟩ := run_faulted n s t hf hb hno h
  exact ⟨rfl, rfl, rfl, rfl, rfl, rfl, rfl⟩

/-! ### STATUS as a word (10_state.md R10) -/

/-- The STATUS word of the three fields, its reserved bits 0. -/
def statusWord (fault busy : Bool) (cause : BitVec 4) : BitVec 32 :=
  0#24 ++ cause ++ 0#2 ++ BitVec.ofBool busy ++ BitVec.ofBool fault

theorem status_eq_statusWord (st : BitVec 32) (h : st &&& reservedMask = 0) :
    st = statusWord (faultBit st) (busyBit st) (causeField st) := by
  rw [reserved_iff] at h
  apply BitVec.eq_of_getLsbD_eq
  intro i hi
  simp only [statusWord, BitVec.getLsbD_append, causeField_bit, faultBit, busyBit]
  have hreserved := h i hi
  interval_cases i <;> simp_all

theorem statusWord_legal (fault busy : Bool) (cause : BitVec 4) (hcode : cause = 0 ∨ cause = 1 ∨ cause = 2)
    (hcause : fault = false ↔ cause = 0) (hexclusive : ¬ (fault = true ∧ busy = true)) :
    statusWord fault busy cause = 0x00000000#32 ∨ statusWord fault busy cause = 0x00000002#32 ∨
      statusWord fault busy cause = 0x00000011#32 ∨ statusWord fault busy cause = 0x00000021#32 := by
  revert fault busy
  rcases hcode with rfl | rfl | rfl <;> decide

/-- Settles O40: the legal combinations of the three fields give four words. -/
theorem statusReadsOneOfFourWords : Obligations.StatusReadsOneOfFourWords := by
  unfold Obligations.StatusReadsOneOfFourWords
  intro s hs
  obtain ⟨hreserved, hcode, hcause, hexclusive⟩ := hs.status
  rw [status_eq_statusWord s.status hreserved]
  exact statusWord_legal _ _ _ hcode hcause hexclusive

/-! ### The configuration (10_state.md R8, R16) -/

theorem step_cfg (s t : State) (h : step s = .next t) : t.cfg = s.cfg := by
  obtain ⟨-, hcase⟩ := step_cases s t h
  cases hcase <;> simp

/-- Settles O41, by the induction over a run. -/
theorem noStepWritesConfiguration : Obligations.NoStepWritesConfiguration := by
  unfold Obligations.NoStepWritesConfiguration
  intro n s t h
  exact run_keeps (fun u => u.cfg = s.cfg) (fun u v hu huv => (step_cfg u v huv).trans hu) n s t rfl h

/-! ### P_LO and P_HI (10_state.md R9) -/

/-- A clock cycle leaves the results or completes the command in flight. -/
theorem tick_results (s : State) :
    ((tick s).pLo = s.pLo ∧ (tick s).pHi = s.pHi ∧ (tick s).resultWritten = s.resultWritten) ∨
      (s.busy = true ∧ tick s = complete s) := by
  rcases tick_cases s with ⟨-, e⟩ | ⟨hb, -, e⟩ | ⟨-, -, e⟩
  · exact .inl (by simp [e])
  · exact .inr ⟨hb, e⟩
  · exact .inl (by simp [e])

/-- Settles O42, by the cases of a step. -/
theorem resultsChangeOnlyAtCompleteOrReset : Obligations.ResultsChangeOnlyAtCompleteOrReset := by
  unfold Obligations.ResultsChangeOnlyAtCompleteOrReset
  intro s t h
  obtain ⟨-, hcase⟩ := step_cases s t h
  cases hcase with
  | hold =>
    rcases tick_results s with hkept | ⟨hb, e⟩
    · exact .inl hkept
    · exact .inr (.inl (by simp [e, hb]))
  | cycle rest =>
    rcases tick_results (proceed rest s) with hkept | ⟨hb, e⟩
    · exact .inl hkept
    · exact .inr (.inl ⟨.inl hb, by simp [e]⟩)
  | exec w rest ha => exact .inr (.inl ⟨.inr ⟨w, rest, ha⟩, by simp⟩)
  | reset rest ha => exact .inr (.inr ⟨rest, ha, rfl⟩)
  | _ => exact .inl (by simp)

end Sys2Proof.Machine
end

section
/-! What a step does with a command and with a register read at the front of the agenda (10_state.md R9, R12, R19). -/

namespace Sys2Proof.Machine

theorem dispatchCommand_decoded (run : Instr → State → Host.Outcome State Fault Refusal) (t : Transaction)
    (i : Instr) (s : State) (h : decode t = .ok i) : dispatchCommand run t s = run i s := by
  simp only [dispatchCommand, h]

theorem decode_of_decodeTableWord {nbits w : Nat} {i : Instr} (h : decodeTableWord nbits w = some i) :
    decode (Transaction.ofTable nbits w) = .ok i := by
  unfold decodeTableWord at h
  split at h
  · obtain rfl := Option.some.inj h
    assumption
  · cases h

/-- A ready block runs the whole command that a merged EXEC offers. -/
theorem step_exec_decoded (s : State) (t : Transaction) (i : Instr) (rest : List Event) (hl : s.cfg.legal = true)
    (hr : s.cmdReady = true) (hd : decode t = .ok i) (ha : s.agenda = .exec t :: rest) :
    step s = exec i (accept rest s) := by
  rw [step_exec s t rest hl ha, offer_ready _ _ _ _ hr, dispatchCommand_decoded _ _ _ _ hd]

/-- A ready block runs the ISSUE of the command that a split event offers. -/
theorem step_issue_decoded (s : State) (t : Transaction) (i : Instr) (rest : List Event) (hl : s.cfg.legal = true)
    (hr : s.cmdReady = true) (hd : decode t = .ok i) (ha : s.agenda = .issue t :: rest) :
    step s = issueInstr i (accept rest s) := by
  rw [step_issue s t rest hl ha, offer_ready _ _ _ _ hr, dispatchCommand_decoded _ _ _ _ hd]

/-- Settles O20: the step of a ready block dispatches the command, which decodes. -/
theorem stepRunsDecodedCommand : Obligations.StepRunsDecodedCommand := by
  unfold Obligations.StepRunsDecodedCommand
  refine ⟨fun s t i rest hl hr hd => ⟨?_, ?_⟩, fun s nbits w i hl hr hd => ?_⟩
  · exact step_exec_decoded s t i rest hl hr hd
  · exact step_issue_decoded s t i rest hl hr hd
  · exact step_exec_decoded (s.withFetchWord nbits w) _ i s.agenda hl hr (decode_of_decodeTableWord hd) rfl

/-- A MULWACC that passes the checks of its ISSUE is latched (40_clmul.md R40). -/
theorem step_issue_latches (s : State) (t : Transaction) (rest : List Event) (hl : s.cfg.legal = true)
    (hr : s.cmdReady = true) (hm : isMulwacc t.cmd = true) (ho : outOfRange s.cfg (zoffField t.cmd) = false)
    (hc : s.racesWith (zoffField t.cmd) = false) (ha : s.agenda = .issue t :: rest) :
    step s = .next (latch t (accept rest s)) := by
  rw [step_issue_decoded s t _ rest hl hr (decode_mulwacc t hm) ha]
  exact (issueMulwacc_latches _ _ _ (accept rest s) hr ho hc).trans (by rw [encode_fields t hm])

/-- Settles O27: the step latches, and of STATUS that sets bit 1 only. -/
theorem issueLatchesAndSetsBusy : Obligations.IssueLatchesAndSetsBusy := by
  unfold Obligations.IssueLatchesAndSetsBusy
  intro s t rest hl hr hm ho hc ha
  refine ⟨_, step_issue_latches s t rest hl hr hm ho hc ha, latch_busy _ _, ?_, rfl, rfl, rfl, rfl, rfl⟩
  intro i hi
  rw [latch_status, setBusy_bit]
  simp [hi]

theorem readResult_unwritten (o : Observation) (s : State) (h : s.resultWritten = false) :
    readResult o s = .fault .unwrittenResult := by
  simp [readResult, h]

theorem readResult_written (o : Observation) (s : State) (h : s.resultWritten = true) :
    readResult o s = .next (observe o s) := by
  simp [readResult, h]

/-- Settles O35: each read is the event at the front of the agenda. -/
theorem clientReadsRegisters : Obligations.ClientReadsRegisters := by
  unfold Obligations.ClientReadsRegisters
  intro s rest hl
  refine ⟨?unwritten, ?pLo, ?pHi, ?status, ?faultCmd⟩
  case unwritten =>
    intro hw ha
    rcases ha with ha | ha <;> rw [step_event s _ rest hl ha]
    · exact readResult_unwritten _ (proceed rest s) hw
    · exact readResult_unwritten _ (proceed rest s) hw
  case pLo =>
    intro hw ha
    rw [step_event s _ rest hl ha]
    exact readResult_written _ (proceed rest s) hw
  case pHi =>
    intro hw ha
    rw [step_event s _ rest hl ha]
    exact readResult_written _ (proceed rest s) hw
  case status =>
    intro ha
    rw [step_event s _ rest hl ha]
    rfl
  case faultCmd =>
    intro ha
    rw [step_event s _ rest hl ha]
    rfl

end Sys2Proof.Machine
end

section
/-! What MULWACC does to Z and on the port to Z: two words, four accesses, one polynomial (20_memory.md R21, R24, R25). -/

namespace Sys2Proof.Machine

theorem exec_mulwacc (zoff : BitVec 26) (x y : Word) (s : State) :
    exec (.mulwacc zoff x y) s = execMulwacc zoff x y s := rfl

/-! ### Words and coefficients of Z after an accumulation -/

theorem readWord_accumulate_of_not_target {z : Memory} {zoff : BitVec 26} {j : Nat} (p : Product) (h : z.wf = true)
    (hj : targets zoff j = false) : (accumulate z zoff p).readWord j = z.readWord j := by
  obtain ⟨hlow, hhigh⟩ : j ≠ lowIndex zoff ∧ j ≠ highIndex zoff := by simpa [targets] using hj
  rw [readWord_accumulate z zoff p j h, if_neg hlow, if_neg hhigh]

/-- The coefficient of degree n of p · t^(64 · ZOFF) is added to the coefficient of degree n of Z. -/
theorem zCoefficient_accumulate (z : Memory) (zoff : BitVec 26) (p : Product) (n : Nat) (h : z.wf = true) :
    zCoefficient (accumulate z zoff p) n =
      (zCoefficient z n ^^ (decide (64 * lowIndex zoff ≤ n) && p.getLsbD (n - 64 * lowIndex zoff))) := by
  have hbit : n % 64 < 64 := Nat.mod_lt n (by decide)
  have hnext : highIndex zoff = lowIndex zoff + 1 := rfl
  unfold zCoefficient
  rw [readWord_accumulate z zoff p _ h]
  by_cases hlow : n / 64 = lowIndex zoff
  · have hle : 64 * lowIndex zoff ≤ n := by omega
    have hdegree : n - 64 * lowIndex zoff = n % 64 := by omega
    simp only [if_pos hlow, BitVec.getLsbD_xor, Product.low_bit, hbit, hle, hdegree, decide_true, Bool.true_and]
  · rw [if_neg hlow]
    by_cases hhigh : n / 64 = highIndex zoff
    · have hle : 64 * lowIndex zoff ≤ n := by omega
      have hdegree : n - 64 * lowIndex zoff = 64 + n % 64 := by omega
      simp only [if_pos hhigh, BitVec.getLsbD_xor, Product.high_bit, hbit, hle, hdegree, decide_true, Bool.true_and]
    · rw [if_neg hhigh]
      by_cases hle : 64 * lowIndex zoff ≤ n
      · rw [BitVec.getLsbD_of_ge p _ (by omega), Bool.and_false, Bool.xor_false]
      · simp only [hle, decide_false, Bool.false_and, Bool.xor_false]

/-- Adding the same product twice adds nothing. -/
theorem accumulate_accumulate_same (z : Memory) (zoff : BitVec 26) (p : Product) (h : z.wf = true) :
    accumulate (accumulate z zoff p) zoff p = z := by
  have hwf := wf_accumulate z zoff p h
  refine memory_ext_words _ _ (wf_accumulate _ zoff p hwf) h fun j => ?_
  rw [readWord_accumulate _ zoff p j hwf, readWord_accumulate z zoff p j h]
  split_ifs
  · rw [BitVec.xor_assoc, BitVec.xor_self, BitVec.xor_zero]
  · rw [BitVec.xor_assoc, BitVec.xor_self, BitVec.xor_zero]
  · rfl

/-- Only the zero product leaves Z as it was: each of its words is read back from its target word. -/
theorem eq_zero_of_accumulate_eq_self {z : Memory} {zoff : BitVec 26} {p : Product} (h : z.wf = true)
    (hz : accumulate z zoff p = z) : p = 0 := by
  have hlow := readWord_accumulate z zoff p (lowIndex zoff) h
  have hhigh := readWord_accumulate z zoff p (highIndex zoff) h
  rw [hz, if_pos rfl] at hlow
  rw [hz, if_neg (Nat.succ_ne_self _), if_pos rfl] at hhigh
  exact Product.ext_words p 0 (xor_left_eq_self_iff.mp hlow.symm) (xor_left_eq_self_iff.mp hhigh.symm)

/-! ### A MULWACC that completes -/

/-- The state after a MULWACC that `s` completes. -/
abbrev afterMulwacc (zoff : BitVec 26) (x y : Word) (s : State) : State :=
  complete (latch (encode (.mulwacc zoff x y)) s)

theorem exec_completes (zoff : BitVec 26) (x y : Word) (s : State) (hr : s.cmdReady = true)
    (ho : outOfRange s.cfg zoff = false) (hc : s.racesWith zoff = false) :
    exec (.mulwacc zoff x y) s = .next (afterMulwacc zoff x y s) :=
  execMulwacc_completes zoff x y s hr ho hc

theorem afterMulwacc_z (zoff : BitVec 26) (x y : Word) (s : State) :
    (afterMulwacc zoff x y s).z = accumulate s.z zoff (clmul64 x y) := by
  simp

theorem afterMulwacc_bus (zoff : BitVec 26) (x y : Word) (s : State) :
    (afterMulwacc zoff x y s).bus = accesses s.z zoff (clmul64 x y) ++ s.bus := by
  simp

/-- A completed command leaves the block as ready as it found it. -/
theorem afterMulwacc_cmdReady (zoff : BitVec 26) (x y : Word) (s : State) (hr : s.cmdReady = true) :
    (afterMulwacc zoff x y s).cmdReady = true := by
  obtain ⟨-, hf⟩ := (cmdReady_iff s).mp hr
  exact (cmdReady_iff _).mpr ⟨complete_busy _, by simpa using hf⟩

/-- A completed command closes its own window, so that no further window is open after it. -/
theorem afterMulwacc_racesWith (zoff : BitVec 26) (x y : Word) (s : State) (hr : s.cmdReady = true)
    (w : BitVec 26) : (afterMulwacc zoff x y s).racesWith w = s.racesWith w := by
  obtain ⟨hb, -⟩ := (cmdReady_iff s).mp hr
  rw [State.racesWith, State.racesWith, complete_windows, latch_others, windows_idle s hb]

/-- Settles O14: the accesses are those that COMPLETE records, and the step of a fault entry records none. -/
theorem completedCommandMakesFourAccesses : Obligations.CompletedCommandMakesFourAccesses := by
  unfold Obligations.CompletedCommandMakesFourAccesses
  refine ⟨?completes, ?faults⟩
  case completes =>
    intro zoff x y s hr ho hc
    refine ⟨_, _, _, exec_completes zoff x y s hr ho hc, rfl, rfl, ?_, ?_⟩
    · rw [afterMulwacc_bus, accesses]
    · rw [afterMulwacc_z, accumulate]
  case faults =>
    intro s u t rest h ha hs hu
    rcases step_fault_cases s u h with he | ⟨c, w, rest', -, -, -, rfl⟩ | ⟨rest', ha'⟩
    · simp [he, hs] at hu
    · exact ⟨rfl, rfl⟩
    · simp [ha'] at ha

/-- Settles O15: a MULWACC that ends without a fault completed, and its accumulation adds the shifted product. -/
theorem mulwaccAddsShiftedPolynomial : Obligations.MulwaccAddsShiftedPolynomial := by
  unfold Obligations.MulwaccAddsShiftedPolynomial
  intro zoff x y s t hwf hs h ht
  rw [exec_mulwacc] at h
  obtain ⟨-, ⟨-, rfl⟩ | ⟨-, -, rfl⟩⟩ := execMulwacc_next zoff x y s t h
  · simp at ht
  · have hall := fun n => zCoefficient_accumulate s.z zoff (clmul64 x y) n hwf
    rw [afterMulwacc_z]
    refine ⟨fun i _ => ?low, fun i _ => ?high, hall⟩
    case low =>
      rw [hall, lowIndex, Nat.add_sub_cancel_left, decide_eq_true (Nat.le_add_right _ i), Bool.true_and]
    case high =>
      have hshift : 64 * (zoff.toNat + 1) + i = 64 * zoff.toNat + (64 + i) := by omega
      rw [hshift, hall, lowIndex, Nat.add_sub_cancel_left, decide_eq_true (Nat.le_add_right _ (64 + i)),
        Bool.true_and]

/-- Settles O16: the block is ready again after the first command, whose product the second one cancels. -/
theorem mulwaccTwiceRestoresZ : Obligations.MulwaccTwiceRestoresZ := by
  unfold Obligations.MulwaccTwiceRestoresZ
  refine ⟨?twice, ?read⟩
  case twice =>
    intro zoff x y s hr ho hc hwf
    refine ⟨_, _, exec_completes zoff x y s hr ho hc, exec_completes zoff x y _ ?ready ?range ?race, ?restored, ?once⟩
    case ready => exact afterMulwacc_cmdReady zoff x y s hr
    case range => rwa [complete_cfg, latch_cfg]
    case race => rwa [afterMulwacc_racesWith zoff x y s hr]
    case restored => rw [afterMulwacc_z, afterMulwacc_z, accumulate_accumulate_same _ _ _ hwf]
    case once =>
      intro hp hz
      rw [afterMulwacc_z] at hz
      exact hp (eq_zero_of_accumulate_eq_self hwf hz)
  case read =>
    intro j s t h
    obtain ⟨-, -, rfl⟩ := accessZ_next j s t _ h
    rfl

end Sys2Proof.Machine
end

section
/-! The client's accesses to Z, and the races of commands and accesses with open windows (20_memory.md R27, R28, §4). -/

namespace Sys2Proof.Machine

/-! ### Which windows an access or a command races with -/

@[simp] theorem proceed_racesAt (rest : List Event) (s : State) (j : Nat) :
    (proceed rest s).racesAt j = s.racesAt j := by
  rw [State.racesAt, State.racesAt, proceed_windows]

@[simp] theorem proceed_racesWith (rest : List Event) (s : State) (zoff : BitVec 26) :
    (proceed rest s).racesWith zoff = s.racesWith zoff := by
  rw [State.racesWith, State.racesWith, proceed_windows]

@[simp] theorem accept_racesWith (rest : List Event) (s : State) (zoff : BitVec 26) :
    (accept rest s).racesWith zoff = s.racesWith zoff := by
  rw [State.racesWith, State.racesWith, accept_windows]

theorem racesAt_busy (s : State) (j : Nat) (hb : s.busy = true) :
    s.racesAt j = (targets s.ifZoff j || s.others.any fun o => targets o.zoff j) := by
  rw [State.racesAt, windows_busy s hb, List.any_cons, List.any_map, Function.comp_def]

theorem racesWith_idle (s : State) (zoff : BitVec 26) (hb : s.busy = false) :
    s.racesWith zoff = s.others.any fun o => overlap zoff o.zoff := by
  rw [State.racesWith, windows_idle s hb, List.any_map, Function.comp_def]

/-! ### Client accesses to Z -/

theorem accessZ_noSuchWord (j : Nat) (s : State) (f : State → State) (hj : s.cfg.extWords ≤ j) :
    accessZ j s f = .fault .noSuchWord := by
  rw [accessZ, if_pos hj]

theorem accessZ_races (j : Nat) (s : State) (f : State → State) (hj : j < s.cfg.extWords)
    (hc : s.racesAt j = true) : accessZ j s f = .fault .raceZ := by
  rw [accessZ, if_neg (Nat.not_le.mpr hj), if_pos hc]

theorem accessZ_allowed (j : Nat) (s : State) (f : State → State) (hj : j < s.cfg.extWords)
    (hc : s.racesAt j = false) : accessZ j s f = .next (f s) := by
  rw [accessZ, if_neg (Nat.not_le.mpr hj), if_neg (by simp [hc])]

section
variable (s : State) (j : Nat) (v : Word) (rest : List Event) (hl : s.cfg.legal = true)
include hl

theorem step_readZ (ha : s.agenda = .readZ j :: rest) : step s = clientReadZ j (proceed rest s) := by
  rw [step_event s _ rest hl ha, takeEvent]

theorem step_writeZ (ha : s.agenda = .writeZ j v :: rest) : step s = clientWriteZ j v (proceed rest s) := by
  rw [step_event s _ rest hl ha, takeEvent]

/-- A client access beyond Z has no word to read or write (log 7). -/
theorem step_accessZ_noSuchWord (hj : s.cfg.extWords ≤ j)
    (ha : s.agenda = .readZ j :: rest ∨ s.agenda = .writeZ j v :: rest) : step s = .fault .noSuchWord := by
  rcases ha with ha | ha
  · rw [step_readZ s j rest hl ha]
    exact accessZ_noSuchWord j (proceed rest s) _ hj
  · rw [step_writeZ s j v rest hl ha]
    exact accessZ_noSuchWord j (proceed rest s) _ hj

/-- A client access to a target word in flight is RACE_Z (20_memory.md R27). -/
theorem step_accessZ_races (hj : j < s.cfg.extWords) (hc : s.racesAt j = true)
    (ha : s.agenda = .readZ j :: rest ∨ s.agenda = .writeZ j v :: rest) : step s = .fault .raceZ := by
  have hc' : (proceed rest s).racesAt j = true := by rwa [proceed_racesAt]
  rcases ha with ha | ha
  · rw [step_readZ s j rest hl ha]
    exact accessZ_races j (proceed rest s) _ hj hc'
  · rw [step_writeZ s j v rest hl ha]
    exact accessZ_races j (proceed rest s) _ hj hc'

theorem step_readZ_allowed (hj : j < s.cfg.extWords) (hc : s.racesAt j = false)
    (ha : s.agenda = .readZ j :: rest) :
    step s = .next (observe (.zWord j (s.z.readWord j)) (proceed rest s)) := by
  rw [step_readZ s j rest hl ha]
  exact accessZ_allowed j (proceed rest s) _ hj (by rwa [proceed_racesAt])

theorem step_writeZ_allowed (hj : j < s.cfg.extWords) (hc : s.racesAt j = false)
    (ha : s.agenda = .writeZ j v :: rest) :
    step s = .next (putZ (s.z.writeWord j v) (proceed rest s)) := by
  rw [step_writeZ s j v rest hl ha]
  exact accessZ_allowed j (proceed rest s) _ hj (by rwa [proceed_racesAt])

end

/-- Settles O34: the allowed read and write by what they do to the state, the write by the word and bytes it leaves. -/
theorem clientReadsAndWritesWordsOfZ : Obligations.ClientReadsAndWritesWordsOfZ := by
  unfold Obligations.ClientReadsAndWritesWordsOfZ
  intro s j v rest hl hc hwf
  refine ⟨fun hj => step_readZ_allowed s j rest hl hj hc, fun hj ha => ?write, step_accessZ_noSuchWord s j v rest hl⟩
  refine ⟨_, step_writeZ_allowed s j v rest hl hj hc ha, ?word, fun a hout => ?bytes, rfl⟩
  case word => rw [putZ_z, readWord_writeWord _ _ _ _ hwf, if_pos rfl]
  case bytes => rw [putZ_z, readByte_writeWord _ _ _ _ hwf, if_neg (by omega)]

/-- Settles O33: while the block is busy its own window is one of those an access can race with. -/
theorem clientAccessInWindow : Obligations.ClientAccessInWindow := by
  unfold Obligations.ClientAccessInWindow
  intro s j v rest hl hb hj
  refine ⟨fun htarget => ?inside, fun htarget hothers => ?outside⟩
  case inside =>
    have hc : s.racesAt j = true := by rw [racesAt_busy s j hb, htarget, Bool.true_or]
    exact ⟨fun ha => step_accessZ_races s j v rest hl hj hc (.inl ha),
      fun ha => step_accessZ_races s j v rest hl hj hc (.inr ha)⟩
  case outside =>
    have hc : s.racesAt j = false := by
      rw [racesAt_busy s j hb, htarget, Bool.false_or, List.any_eq_false]
      exact fun o ho => by simp [hothers o ho]
    exact ⟨fun ha => ⟨_, step_readZ_allowed s j rest hl hj hc ha, hb⟩,
      fun ha => ⟨_, step_writeZ_allowed s j v rest hl hj hc ha, hb, rfl⟩⟩

/-! ### Commands of two instances on one Z -/

theorem otherIssue_races (t : Transaction) (s : State) (hm : isMulwacc t.cmd = true)
    (ho : outOfRange s.cfg (zoffField t.cmd) = false) (hc : s.racesWith (zoffField t.cmd) = true) :
    otherIssue t s = .fault .raceZ := by
  simp [otherIssue, decode_mulwacc t hm, ho, hc]

theorem otherIssue_opens (t : Transaction) (s : State) (hm : isMulwacc t.cmd = true)
    (ho : outOfRange s.cfg (zoffField t.cmd) = false) (hc : s.racesWith (zoffField t.cmd) = false) :
    otherIssue t s = .next (putOthers (s.others ++ [⟨zoffField t.cmd, t.x, t.y⟩]) s) := by
  simp [otherIssue, decode_mulwacc t hm, ho, hc]

theorem step_otherIssue (s : State) (t : Transaction) (rest : List Event) (hl : s.cfg.legal = true)
    (ha : s.agenda = .otherIssue t :: rest) : step s = otherIssue t (proceed rest s) := by
  rw [step_event s _ rest hl ha, takeEvent]

section
variable (s : State) (t : Transaction) (rest : List Event) (hl : s.cfg.legal = true) (hr : s.cmdReady = true)
  (hm : isMulwacc t.cmd = true) (ho : outOfRange s.cfg (zoffField t.cmd) = false)
include hl hr hm ho

/-- A command of this block that overlaps an open window is RACE_Z, merged or split (20_memory.md R28). -/
theorem step_command_races (hc : s.racesWith (zoffField t.cmd) = true)
    (ha : s.agenda = .issue t :: rest ∨ s.agenda = .exec t :: rest) : step s = .fault .raceZ := by
  have hc' : (accept rest s).racesWith (zoffField t.cmd) = true := by rwa [accept_racesWith]
  rcases ha with ha | ha
  · rw [step_issue_decoded s t _ rest hl hr (decode_mulwacc t hm) ha]
    exact issueMulwacc_races _ _ _ (accept rest s) hr ho hc'
  · rw [step_exec_decoded s t _ rest hl hr (decode_mulwacc t hm) ha]
    exact execMulwacc_races _ _ _ (accept rest s) hr ho hc'

/-- A merged MULWACC that passes the checks of its ISSUE completes (70_reset_and_hazards.md R74). -/
theorem step_exec_completes (hc : s.racesWith (zoffField t.cmd) = false) (ha : s.agenda = .exec t :: rest) :
    step s = .next (complete (latch t (accept rest s))) := by
  rw [step_exec_decoded s t _ rest hl hr (decode_mulwacc t hm) ha,
    exec_completes _ _ _ (accept rest s) hr ho (by rwa [accept_racesWith]), afterMulwacc, encode_fields t hm]

/-- A command of this block that overlaps no open window goes on without a fault. -/
theorem step_command_goes_on (hc : s.racesWith (zoffField t.cmd) = false)
    (ha : s.agenda = .issue t :: rest ∨ s.agenda = .exec t :: rest) : ∃ u, step s = .next u ∧ u.fault = false := by
  obtain ⟨-, hf⟩ := (cmdReady_iff s).mp hr
  rcases ha with ha | ha
  · exact ⟨_, step_issue_latches s t rest hl hr hm ho hc ha, by simpa using hf⟩
  · exact ⟨_, step_exec_completes s t rest hl hr hm ho hc ha, by simpa using hf⟩

end

/-- Settles O36: an idle block's own command can race with the windows of other instances only. -/
theorem overlappingInstancesRace : Obligations.OverlappingInstancesRace := by
  unfold Obligations.OverlappingInstancesRace
  intro s t rest hl hm ho
  refine ⟨fun ha hc => ?otherRaces, fun ha hc => ?otherOpens,
    fun hr ha => ⟨fun hoverlap => ?races, fun hdisjoint => ?goesOn⟩⟩
  case otherRaces =>
    rw [step_otherIssue s t rest hl ha]
    exact otherIssue_races t (proceed rest s) hm ho (by rwa [proceed_racesWith])
  case otherOpens =>
    rw [step_otherIssue s t rest hl ha]
    exact otherIssue_opens t (proceed rest s) hm ho (by rwa [proceed_racesWith])
  case races =>
    obtain ⟨hb, -⟩ := (cmdReady_iff s).mp hr
    exact step_command_races s t rest hl hr hm ho ((racesWith_idle s _ hb).trans (List.any_eq_true.mpr hoverlap)) ha
  case goesOn =>
    obtain ⟨hb, -⟩ := (cmdReady_iff s).mp hr
    have hc : s.racesWith (zoffField t.cmd) = false := by
      rw [racesWith_idle s _ hb, List.any_eq_false]
      exact fun o ho' => by simp [hdisjoint o ho']
    exact step_command_goes_on s t rest hl hr hm ho hc ha

end Sys2Proof.Machine
end

section
/-! The writers of Z over a step (20_memory.md R20, R24, 70_reset_and_hazards.md R66). -/

namespace Sys2Proof.Machine

theorem targets_of_readWord_accumulate_ne {z : Memory} {zoff : BitVec 26} {p : Product} {j : Nat} (h : z.wf = true)
    (hne : (accumulate z zoff p).readWord j ≠ z.readWord j) : targets zoff j = true := by
  by_contra hj
  exact hne (readWord_accumulate_of_not_target p h (by simpa using hj))

/-- A clock cycle changes a target word of the command in flight, which it completes, and no other word of Z. -/
theorem tick_of_readWord_ne (s : State) (j : Nat) (h : s.z.wf = true)
    (hne : (tick s).z.readWord j ≠ s.z.readWord j) :
    s.busy = true ∧ (tick s).busy = false ∧ (tick s).resultWritten = true ∧ targets s.ifZoff j = true := by
  rcases tick_cases s with ⟨-, e⟩ | ⟨hb, -, e⟩ | ⟨-, -, e⟩
  · simp [e] at hne
  · rw [e, complete_z] at hne
    exact ⟨hb, by rw [e, complete_busy], by rw [e, complete_resultWritten], targets_of_readWord_accumulate_ne h hne⟩
  · simp [e] at hne

/-- A reset does not touch Z (70_reset_and_hazards.md R66). -/
theorem step_reset_z (s t : State) (rest : List Event) (h : step s = .next t) (ha : s.agenda = .reset :: rest) :
    t.z = s.z := by
  rw [step_reset s rest (step_next_legal s t h) ha] at h
  obtain rfl := Host.Outcome.next.inj h
  rfl

/-- Settles O43, by the cases of a step: all but four leave Z, and each of the four names its words. -/
theorem zChangesOnlyAtItsWriters : Obligations.ZChangesOnlyAtItsWriters := by
  unfold Obligations.ZChangesOnlyAtItsWriters
  intro s t j hwf h hne
  have hreset : ∀ rest, s.agenda ≠ .reset :: rest := fun rest ha => hne (by rw [step_reset_z s t rest h ha])
  obtain ⟨-, hcase⟩ := step_cases s t h
  cases hcase with
  | hold =>
    obtain ⟨hb, htb, htw, hj⟩ := tick_of_readWord_ne s j hwf hne
    exact .inl ⟨hb, hreset, htb, htw, hj⟩
  | cycle rest =>
    obtain ⟨hb, htb, htw, hj⟩ := tick_of_readWord_ne (proceed rest s) j hwf hne
    exact .inl ⟨hb, hreset, htb, htw, hj⟩
  | exec w rest ha hr hm ho =>
    rw [complete_z, latch_z, latch_ifZoff, accept_z] at hne
    exact .inr (.inl ⟨w, rest, ha, hr, hm, ho, targets_of_readWord_accumulate_ne hwf hne⟩)
  | writeZ k v rest ha _ hc =>
    rw [putZ_z, readWord_writeWord _ _ _ _ hwf] at hne
    obtain rfl : j = k := by
      by_contra hjk
      exact hne (if_neg hjk)
    exact .inr (.inr (.inl ⟨v, rest, ha, hc, by rw [putZ_z, readWord_writeWord _ _ _ _ hwf, if_pos rfl]⟩))
  | otherComplete k rest o ha ho =>
    rw [putOthers_z, putZ_z] at hne
    exact .inr (.inr (.inr ⟨k, rest, o, ha, ho, targets_of_readWord_accumulate_ne hwf hne⟩))
  | _ => exact absurd (by simp) hne

end Sys2Proof.Machine
end

section
/-! The command format: the encoder and the decoder against each other, and the fields that decide what a word is
(30_encoding.md R32 to R37). -/

namespace Sys2Proof

/-! ### Decode and encode -/

/-- Every instruction is what its encoding decodes to (30_encoding.md R35). -/
theorem decode_encode (i : Instr) : decode (encode i) = .ok i := by
  cases i with
  | mulwacc zoff x y =>
    rw [decode_mulwacc _ (isMulwacc_mulwaccWord zoff), encode_cmd, encode_x, encode_y, zoffField_mulwaccWord]

theorem decode_eq_ok_iff (t : Transaction) (i : Instr) : decode t = .ok i ↔ encode i = t := by
  constructor
  · exact encode_of_decode t i
  · rintro rfl
    exact decode_encode i

theorem exists_decode_eq_ok_iff (t : Transaction) : (∃ i, decode t = .ok i) ↔ isMulwacc t.cmd = true := by
  constructor
  · rintro ⟨⟨zoff, x, y⟩, h⟩
    rw [← encode_of_decode t _ h]
    exact isMulwacc_mulwaccWord zoff
  · exact fun h => ⟨_, decode_mulwacc t h⟩

/-! ### The 160-bit value {CMD, X, Y} (log 15) -/

theorem Transaction.ofBits_bits (t : Transaction) : Transaction.ofBits t.bits = t := by
  have hcmd : t.bits.extractLsb' 128 32 = t.cmd := by
    rw [Transaction.bits, BitVec.extractLsb'_append_eq_of_le (by decide), BitVec.extractLsb'_append_eq_left]
  have hx : t.bits.extractLsb' 64 64 = t.x := by
    rw [Transaction.bits, BitVec.extractLsb'_append_eq_of_le (by decide), BitVec.extractLsb'_append_eq_right]
  have hy : t.bits.extractLsb' 0 64 = t.y := BitVec.extractLsb'_append_eq_right
  rw [Transaction.ofBits, hcmd, hx, hy]

theorem Transaction.bits_ofBits (b : BitVec 160) : (Transaction.ofBits b).bits = b := by
  simp only [Transaction.bits, Transaction.ofBits]
  rw [BitVec.extractLsb'_append_extractLsb'_eq_extractLsb' (by decide),
    BitVec.extractLsb'_append_extractLsb'_eq_extractLsb' (by decide), BitVec.extractLsb'_eq_self]

/-- Settles O2: the encoder inverts the decoder, and the layout is a bijection, so this carries over to 160 bits. -/
theorem decodeAndEncodeAgree : Obligations.DecodeAndEncodeAgree := by
  unfold Obligations.DecodeAndEncodeAgree
  refine ⟨decode_eq_ok_iff, Transaction.ofBits_bits, Transaction.bits_ofBits, fun i => ?_⟩
  rw [decodeBits, Transaction.ofBits_bits, decode_encode]

/-! ### OP and RSV (30_encoding.md R33, R36) -/

@[simp] theorem opField_mulwaccWord (zoff : BitVec 26) : opField (mulwaccWord zoff) = 0b0001#4 := by
  rw [opField, mulwaccWord, BitVec.extractLsb'_append_eq_of_le (by decide), BitVec.extractLsb'_append_eq_left]

@[simp] theorem rsvField_mulwaccWord (zoff : BitVec 26) : rsvField (mulwaccWord zoff) = 0b00#2 := by
  rw [rsvField, mulwaccWord, BitVec.extractLsb'_append_eq_of_le (by decide), BitVec.extractLsb'_append_eq_right]

/-- A command word is its three fields, highest first (30_encoding.md R33). -/
theorem fields_append (cmd : BitVec 32) : opField cmd ++ rsvField cmd ++ zoffField cmd = cmd := by
  rw [opField, rsvField, zoffField, BitVec.extractLsb'_append_extractLsb'_eq_extractLsb' (by decide),
    BitVec.extractLsb'_append_extractLsb'_eq_extractLsb' (by decide), BitVec.extractLsb'_eq_self]

theorem isMulwacc_iff_mask (cmd : BitVec 32) : isMulwacc cmd = true ↔ cmd &&& 0xFC000000#32 = 0x10000000#32 :=
  beq_iff_eq

theorem isMulwacc_iff_fields (cmd : BitVec 32) :
    isMulwacc cmd = true ↔ opField cmd = 0b0001#4 ∧ rsvField cmd = 0b00#2 := by
  constructor
  · intro h
    rw [← mulwaccWord_zoffField cmd h]
    exact ⟨opField_mulwaccWord _, rsvField_mulwaccWord _⟩
  · rintro ⟨hop, hrsv⟩
    have hword : mulwaccWord (zoffField cmd) = cmd := by
      rw [mulwaccWord, ← hop, ← hrsv, fields_append]
    rw [← hword]
    exact isMulwacc_mulwaccWord _

/-! ### The name of a rejected word (30_encoding.md R37) -/

theorem decode_reservedOp (t : Transaction) (hop : opField t.cmd ≠ 0b0001#4) : decode t = .error .reservedOp := by
  have hm : ¬ isMulwacc t.cmd = true := fun h => hop ((isMulwacc_iff_fields _).mp h).1
  rw [decode, if_neg hm, if_neg hop]

theorem decode_reservedRsv (t : Transaction) (hop : opField t.cmd = 0b0001#4) (hrsv : rsvField t.cmd ≠ 0b00#2) :
    decode t = .error .reservedRsv := by
  have hm : ¬ isMulwacc t.cmd = true := fun h => hrsv ((isMulwacc_iff_fields _).mp h).2
  rw [decode, if_neg hm, if_pos hop]

theorem decode_eq_reservedOp_iff (t : Transaction) :
    decode t = .error .reservedOp ↔ opField t.cmd ≠ 0b0001#4 := by
  refine ⟨fun h hop => ?_, decode_reservedOp t⟩
  by_cases hrsv : rsvField t.cmd = 0b00#2
  · simp [decode_mulwacc t ((isMulwacc_iff_fields _).mpr ⟨hop, hrsv⟩)] at h
  · simp [decode_reservedRsv t hop hrsv] at h

theorem decode_eq_reservedRsv_iff (t : Transaction) :
    decode t = .error .reservedRsv ↔ opField t.cmd = 0b0001#4 ∧ rsvField t.cmd ≠ 0b00#2 := by
  refine ⟨fun h => ?_, fun ⟨hop, hrsv⟩ => decode_reservedRsv t hop hrsv⟩
  have hop : opField t.cmd = 0b0001#4 := by
    by_contra hop
    simp [decode_reservedOp t hop] at h
  refine ⟨hop, fun hrsv => ?_⟩
  simp [decode_mulwacc t ((isMulwacc_iff_fields _).mpr ⟨hop, hrsv⟩)] at h

/-- Settles O1: the two legal words are the encodings of their instructions, the other three have a reserved field. -/
theorem specWordsDecode : Obligations.SpecWordsDecode := by
  unfold Obligations.SpecWordsDecode
  refine ⟨decode_encode (.mulwacc 1 0x3 0x5), decode_encode (.mulwacc 0x3fffffe 0x1 0x1), ?opZero, ?opTwo, ?rsvOne⟩
  case opZero => exact decode_reservedOp _ (by decide)
  case opTwo => exact decode_reservedOp _ (by decide)
  case rsvOne => exact decode_reservedRsv _ (by decide) (by decide)

end Sys2Proof
end

section
/-! The fault entry of an offered command (30_encoding.md R36, 60_exceptions.md R53, R54). -/

namespace Sys2Proof.Machine

section
variable (s : State) (t : Transaction) (rest : List Event) (hl : s.cfg.legal = true) (hr : s.cmdReady = true)
  (ha : s.agenda = .issue t :: rest ∨ s.agenda = .exec t :: rest)
include hl hr ha

/-- A ready block that is offered a word that is no command enters ILLEGAL_COMMAND, merged or split. -/
theorem step_command_illegal (hm : isMulwacc t.cmd = false) :
    step s = .next (raise .illegalCommand t.cmd (accept rest s)) := by
  obtain ⟨e, hd⟩ := decode_illegal t hm
  rcases ha with ha | ha
  · rw [step_issue s t rest hl ha, offer_ready _ _ _ _ hr, dispatchCommand, hd]
  · rw [step_exec s t rest hl ha, offer_ready _ _ _ _ hr, dispatchCommand, hd]

/-- A ready block that is offered a MULWACC out of range enters OFFSET_RANGE, merged or split. -/
theorem step_command_outOfRange (hm : isMulwacc t.cmd = true) (ho : outOfRange s.cfg (zoffField t.cmd) = true) :
    step s = .next (raise .offsetRange t.cmd (accept rest s)) := by
  rcases ha with ha | ha
  · rw [step_issue_decoded s t _ rest hl hr (decode_mulwacc t hm) ha, issueInstr,
      issueMulwacc_raises _ _ _ (accept rest s) hr ho, mulwaccWord_zoffField _ hm]
  · rw [step_exec_decoded s t _ rest hl hr (decode_mulwacc t hm) ha, exec_mulwacc,
      execMulwacc_raises _ _ _ (accept rest s) hr ho, mulwaccWord_zoffField _ hm]

end

theorem outOfRange_iff (c : Config) (zoff : BitVec 26) :
    outOfRange c zoff = true ↔ c.extWords < zoff.toNat + 2 := by
  simp [outOfRange]

/-- Settles O3: the mask is the two fields, each rejected word has its name, and each cause is that of the fault entry
that the step makes. -/
theorem commandWordIsMulwaccByOpAndRsv : Obligations.CommandWordIsMulwaccByOpAndRsv := by
  unfold Obligations.CommandWordIsMulwaccByOpAndRsv
  refine ⟨fun cmd => ⟨?fields, isMulwacc_iff_mask cmd⟩, exists_decode_eq_ok_iff, decode_eq_reservedOp_iff,
    decode_eq_reservedRsv_iff, fun zoff x y => decode_encode (.mulwacc zoff x y),
    fun s t rest hl hr ha => ⟨fun hm => ?illegal, fun hm hrange => ?range⟩⟩
  case fields => rw [← isMulwacc_iff_mask, isMulwacc_iff_fields]
  case illegal => exact ⟨_, step_command_illegal s t rest hl hr ha hm, raise_fault _ _ _, raise_cause _ _ _⟩
  case range =>
    have ho : outOfRange s.cfg (zoffField t.cmd) = true := by
      rw [outOfRange_iff]
      omega
    exact ⟨_, step_command_outOfRange s t rest hl hr ha hm ho, raise_fault _ _ _, raise_cause _ _ _⟩

end Sys2Proof.Machine
end

section
/-! The assembler: lines as numbers to transactions, and the listing back (30_encoding.md R38). -/

namespace Sys2Proof.Machine

/-- 30_encoding.md R38's command word `0x10000000 | zoff` is OP, RSV, ZOFF of R33. -/
theorem or_setWidth_eq_mulwaccWord (zoff : BitVec 26) : 0x10000000#32 ||| zoff.setWidth 32 = mulwaccWord zoff := by
  have hopcode : 0x10000000#32 = 0b0001#4 ++ 0b00#2 ++ 0#26 := by decide
  have hoffset : zoff.setWidth 32 = 0#6 ++ zoff := BitVec.setWidth_eq_append (by decide)
  rw [hopcode, hoffset, BitVec.or_append, BitVec.or_zero, BitVec.zero_or, mulwaccWord]

theorem assemble_mulwacc (zoff : BitVec 26) (x y : Word) :
    assemble (.mulwacc zoff.toNat x.toNat y.toNat) = some ⟨0x10000000#32 ||| zoff.setWidth 32, x, y⟩ := by
  have hfits : (Line.mulwacc zoff.toNat x.toNat y.toNat).wellFormed = true := by
    simp [Line.wellFormed, zoff.isLt, x.isLt, y.isLt]
  rw [assemble, if_pos hfits]
  simp

theorem assemble_mulwacc_eq_encode (zoff : BitVec 26) (x y : Word) :
    assemble (.mulwacc zoff.toNat x.toNat y.toNat) = some (encode (.mulwacc zoff x y)) := by
  rw [assemble_mulwacc, or_setWidth_eq_mulwaccWord, encode]

theorem assemble_mulwacc_refused (zoff x y : Nat) (h : 2 ^ 26 ≤ zoff) : assemble (.mulwacc zoff x y) = none := by
  have hwide : (Line.mulwacc zoff x y).wellFormed = false := by
    simp only [Line.wellFormed, Nat.not_lt.mpr h, decide_false, Bool.false_and]
  rw [assemble, if_neg (by simp [hwide])]

theorem assemble_raw (t : Transaction) : assemble (.raw t.cmd.toNat t.x.toNat t.y.toNat) = some t := by
  have hfits : (Line.raw t.cmd.toNat t.x.toNat t.y.toNat).wellFormed = true := by
    simp [Line.wellFormed, t.cmd.isLt, t.x.isLt, t.y.isLt]
  rw [assemble, if_pos hfits]
  simp

/-- Settles O4: a listed command assembles to its encoding, a listed raw word to itself. -/
theorem assemblerIsInverseOfListing : Obligations.AssemblerIsInverseOfListing := by
  unfold Obligations.AssemblerIsInverseOfListing
  refine ⟨fun t => ?inverse, assemble_mulwacc_refused,
    fun zoff x y => ⟨assemble_mulwacc zoff x y, assemble_mulwacc_eq_encode zoff x y⟩⟩
  case inverse =>
    unfold listing
    split
    next zoff x y h => rw [assemble_mulwacc_eq_encode, encode_of_decode t _ h]
    next => exact assemble_raw t

end Sys2Proof.Machine
end

section
/-! The product as a product of polynomials over GF(2): the laws of 40_clmul.md R41 to R43 come from the ring of
polynomials. -/

namespace Sys2Proof.Machine

open Polynomial

/-- The polynomial over GF(2) that a vector of bits stands for: bit i is the coefficient of t^i (00_scope.md R5). -/
noncomputable def bitPoly {w : Nat} (v : BitVec w) : Polynomial (ZMod 2) :=
  ∑ i ∈ Finset.range w, if v.getLsbD i then X ^ i else 0

theorem coeff_bitPoly {w : Nat} (v : BitVec w) (n : Nat) :
    (bitPoly v).coeff n = if v.getLsbD n then 1 else 0 := by
  have hterm : ∀ i, (if v.getLsbD i then (X : Polynomial (ZMod 2)) ^ i else 0).coeff n =
      if n = i then (if v.getLsbD n then 1 else 0) else 0 := by
    intro i
    by_cases hni : n = i
    · subst hni; split <;> simp
    · split <;> simp [coeff_X_pow, hni]
  rw [bitPoly, finsetSum_coeff, Finset.sum_congr rfl fun i _ => hterm i, Finset.sum_ite_eq]
  by_cases hn : n < w
  · rw [if_pos (Finset.mem_range.mpr hn)]
  · rw [if_neg (by simpa using hn), BitVec.getLsbD_of_ge v n (by omega), if_neg (by decide)]

theorem getLsbD_eq_true_iff_coeff {w : Nat} (v : BitVec w) (n : Nat) :
    v.getLsbD n = true ↔ (bitPoly v).coeff n = 1 := by
  simp [coeff_bitPoly]

/-- Vectors of bits with the same polynomial agree in every bit. -/
theorem getLsbD_of_bitPoly_eq {w w' : Nat} {v : BitVec w} {v' : BitVec w'} (h : bitPoly v = bitPoly v') (n : Nat) :
    v.getLsbD n = v'.getLsbD n := by
  rw [Bool.eq_iff_iff, getLsbD_eq_true_iff_coeff, getLsbD_eq_true_iff_coeff, h]

theorem bitPoly_injective {w : Nat} {v v' : BitVec w} (h : bitPoly v = bitPoly v') : v = v' :=
  BitVec.eq_of_getLsbD_eq fun i _ => getLsbD_of_bitPoly_eq h i

@[simp] theorem bitPoly_zero (w : Nat) : bitPoly 0#w = 0 := by
  ext n; simp [coeff_bitPoly]

/-- XOR is the addition of polynomials over GF(2) (00_scope.md R6). -/
@[simp] theorem bitPoly_xor {w : Nat} (v v' : BitVec w) : bitPoly (v ^^^ v') = bitPoly v + bitPoly v' := by
  ext n
  rw [coeff_add, coeff_bitPoly, coeff_bitPoly, coeff_bitPoly, BitVec.getLsbD_xor]
  cases v.getLsbD n <;> cases v'.getLsbD n <;> decide

/-- A shifted copy of b that fits in 128 bits is b times a power of t. -/
theorem bitPoly_shiftedCopy (b : Word) (n : Nat) (hn : n ≤ 64) :
    bitPoly (b.setWidth 128 <<< n) = bitPoly b * X ^ n := by
  ext k
  rw [coeff_mul_X_pow', coeff_bitPoly, coeff_bitPoly, BitVec.getLsbD_shiftLeft, BitVec.getLsbD_setWidth]
  by_cases hnk : n ≤ k
  · by_cases hk : k < 128
    · simp [hnk, hk, Nat.not_lt.mpr hnk, show k - n < 128 by omega]
    · simp [hk, BitVec.getLsbD_of_ge b (k - n) (by omega)]
  · simp [hnk, Nat.not_le.mp hnk]

theorem bitPoly_clmulUpTo (a b : Word) (n : Nat) (hn : n ≤ 64) :
    bitPoly (clmulUpTo a b n) = bitPoly b * ∑ i ∈ Finset.range n, if a.getLsbD i then X ^ i else 0 := by
  induction n with
  | zero => simp
  | succ n ih =>
    rw [clmulUpTo_succ, bitPoly_xor, ih (by omega), Finset.sum_range_succ, mul_add]
    split
    · rw [bitPoly_shiftedCopy b n (by omega)]
    · simp

/-- The carryless product is the product of polynomials over GF(2) (00_scope.md R7). -/
@[simp] theorem bitPoly_clmul64 (a b : Word) : bitPoly (clmul64 a b) = bitPoly a * bitPoly b := by
  rw [clmul64, bitPoly_clmulUpTo a b 64 le_rfl, mul_comm, ← bitPoly]

theorem clmul64_comm (a b : Word) : clmul64 a b = clmul64 b a := by
  apply bitPoly_injective
  rw [bitPoly_clmul64, bitPoly_clmul64, mul_comm]

theorem clmul64_xor_left (a b c : Word) : clmul64 (a ^^^ b) c = clmul64 a c ^^^ clmul64 b c := by
  apply bitPoly_injective
  rw [bitPoly_clmul64, bitPoly_xor, bitPoly_xor, bitPoly_clmul64, bitPoly_clmul64, add_mul]

theorem clmul64_xor_right (a b c : Word) : clmul64 a (b ^^^ c) = clmul64 a b ^^^ clmul64 a c := by
  rw [clmul64_comm, clmul64_xor_left, clmul64_comm b, clmul64_comm c]

/-- Settles O6: the product of polynomials commutes and distributes. -/
theorem productCommutesAndDistributes : Obligations.ProductCommutesAndDistributes := by
  unfold Obligations.ProductCommutesAndDistributes
  exact fun a b c => ⟨clmul64_comm a b, clmul64_xor_left a b c, clmul64_xor_right a b c⟩

/-! ### Zero, one and the powers of t (40_clmul.md R41 items 4 and 5) -/

theorem clmul64_zero_left (b : Word) : clmul64 0 b = 0 := by
  apply bitPoly_injective
  simp

theorem getLsbD_one_shiftLeft {w : Nat} (i n : Nat) (hi : i < w) : (1#w <<< i).getLsbD n = decide (i = n) := by
  rw [← BitVec.twoPow_eq, BitVec.getLsbD_twoPow, decide_eq_true hi, Bool.true_and]

theorem bitPoly_one_shiftLeft {w : Nat} (i : Nat) (hi : i < w) : bitPoly (1#w <<< i) = X ^ i := by
  ext n
  simp [coeff_bitPoly, getLsbD_one_shiftLeft i n hi, coeff_X_pow, eq_comm (a := i)]

theorem clmul64_one_shiftLeft (i : Nat) (b : Word) (hi : i < 64) :
    clmul64 (1#64 <<< i) b = b.setWidth 128 <<< i := by
  apply bitPoly_injective
  rw [bitPoly_clmul64, bitPoly_one_shiftLeft i hi, bitPoly_shiftedCopy b i (by omega), mul_comm]

/-- Settles O7: the word 2^i is the polynomial t^i, and 1 is the case i = 0. -/
theorem productOfZeroOneAndPowers : Obligations.ProductOfZeroOneAndPowers := by
  unfold Obligations.ProductOfZeroOneAndPowers
  refine fun b => ⟨clmul64_zero_left b, ?one, fun i => clmul64_one_shiftLeft i b⟩
  case one => simpa using clmul64_one_shiftLeft 0 b (by decide)

/-! ### The degree (40_clmul.md R41 items 1 and 6) -/

theorem bitPoly_eq_zero_iff {w : Nat} (v : BitVec w) : bitPoly v = 0 ↔ v = 0 :=
  ⟨fun h => bitPoly_injective (h.trans (bitPoly_zero w).symm), fun h => h ▸ bitPoly_zero w⟩

/-- The degree of the polynomial is the index of the highest set bit. -/
theorem natDegree_bitPoly {w : Nat} (v : BitVec w) (hv : v ≠ 0) : (bitPoly v).natDegree = v.toNat.log2 := by
  have hnat : v.toNat ≠ 0 := by simpa [← BitVec.toNat_inj] using hv
  apply natDegree_eq_of_le_of_coeff_ne_zero
  · refine natDegree_le_iff_coeff_eq_zero.mpr fun n hn => ?_
    have hbit : v.getLsbD n = false := Nat.testBit_lt_two_pow ((Nat.log2_lt hnat).mp hn)
    simp [coeff_bitPoly, hbit]
  · have hbit : v.getLsbD v.toNat.log2 = true := Nat.testBit_log2 hnat
    simp [coeff_bitPoly, hbit]

theorem clmul64_ne_zero {a b : Word} (ha : a ≠ 0) (hb : b ≠ 0) : clmul64 a b ≠ 0 := by
  rw [Ne, ← bitPoly_eq_zero_iff, bitPoly_clmul64]
  exact mul_ne_zero (mt (bitPoly_eq_zero_iff a).mp ha) (mt (bitPoly_eq_zero_iff b).mp hb)

theorem log2_clmul64 {a b : Word} (ha : a ≠ 0) (hb : b ≠ 0) :
    (clmul64 a b).toNat.log2 = a.toNat.log2 + b.toNat.log2 := by
  rw [← natDegree_bitPoly _ (clmul64_ne_zero ha hb), bitPoly_clmul64,
    natDegree_mul (mt (bitPoly_eq_zero_iff a).mp ha) (mt (bitPoly_eq_zero_iff b).mp hb), natDegree_bitPoly a ha,
    natDegree_bitPoly b hb]

/-- A product of degree at most 63 fits in its low word. -/
theorem high_eq_zero_of_log2_le (p : Product) (hp : p ≠ 0) (hdegree : p.toNat.log2 ≤ 63) : p.high = 0 := by
  have hnat : p.toNat ≠ 0 := by simpa [← BitVec.toNat_inj] using hp
  apply BitVec.eq_of_getLsbD_eq
  intro i hi
  have hlt : p.toNat < 2 ^ (64 + i) := (Nat.log2_lt hnat).mp (by omega)
  have hbit : p.getLsbD (64 + i) = false := Nat.testBit_lt_two_pow hlt
  simp [Product.high_bit, hbit]

/-- Settles O8: degrees of polynomials over a field add. -/
theorem productDegreeIsSumOfDegrees : Obligations.ProductDegreeIsSumOfDegrees := by
  unfold Obligations.ProductDegreeIsSumOfDegrees
  refine fun a b => ⟨?top, fun ha hb => ⟨log2_clmul64 ha hb, clmul64_ne_zero ha hb, fun hsum => ?high⟩⟩
  case top => rw [getLsbD_clmul64 a b 127 (by decide), coefficient, coefficientUpTo_127 a b 64 le_rfl]
  case high => exact high_eq_zero_of_log2_le _ (clmul64_ne_zero ha hb) (by rwa [log2_clmul64 ha hb])

/-! ### The square (40_clmul.md R43) -/

theorem bitPoly_spreadUpTo (a : Word) (n : Nat) (hn : n ≤ 64) :
    bitPoly (spreadUpTo a n) = ∑ i ∈ Finset.range n, if a.getLsbD i then X ^ (2 * i) else 0 := by
  induction n with
  | zero => exact bitPoly_zero 128
  | succ n ih =>
    rw [spreadUpTo, bitPoly_xor, ih (by omega), Finset.sum_range_succ]
    split
    · rw [bitPoly_one_shiftLeft (2 * n) (by omega)]
    · simp

/-- Spreading the bits of a is putting t² for t. -/
theorem bitPoly_spread (a : Word) : bitPoly (spread a) = expand (ZMod 2) 2 (bitPoly a) := by
  rw [spread, bitPoly_spreadUpTo a 64 le_rfl, bitPoly, map_sum]
  refine Finset.sum_congr rfl fun i _ => ?_
  split
  · rw [map_pow, expand_X, pow_mul]
  · rw [map_zero]

/-- Squaring over GF(2) puts t² for t, since the cross terms cancel in pairs. -/
theorem bitPoly_square (a : Word) : bitPoly (clmul64 a a) = expand (ZMod 2) 2 (bitPoly a) := by
  rw [bitPoly_clmul64, ZMod.expand_card, sq]

/-- Settles O9: the square of a polynomial over GF(2) is that polynomial in t². -/
theorem squareSpreadsBits : Obligations.SquareSpreadsBits := by
  unfold Obligations.SquareSpreadsBits
  refine fun a => ⟨bitPoly_injective ((bitPoly_square a).trans (bitPoly_spread a).symm), fun i _ => ⟨?even, ?odd⟩⟩
  case even =>
    rw [Bool.eq_iff_iff, getLsbD_eq_true_iff_coeff, getLsbD_eq_true_iff_coeff, bitPoly_square,
      coeff_expand_mul' (by decide)]
  case odd =>
    rw [← Bool.not_eq_true, getLsbD_eq_true_iff_coeff, bitPoly_square, coeff_expand (by decide),
      if_neg (by omega)]
    exact zero_ne_one

end Sys2Proof.Machine
end

section
/-! What the comb table holds and what the correction pass keeps of X (40_clmul.md R47, R49). -/

namespace Sys2Proof.Machine

/-! ### The comb table (40_clmul.md R47) -/

theorem low_shiftedCopy (b : Word) (n : Nat) : Product.low (b.setWidth 128 <<< n) = b <<< n := by
  apply BitVec.eq_of_getLsbD_eq
  intro i hi
  have h128 : i < 128 := by omega
  have hsub : i - n < 128 := by omega
  rw [Product.low_bit, BitVec.getLsbD_shiftLeft, BitVec.getLsbD_shiftLeft, BitVec.getLsbD_setWidth]
  simp only [hi, h128, hsub, decide_true, Bool.true_and]

theorem clmulUpTo_of_high_bits_zero (a b : Word) (m n : Nat) (ha : ∀ i, m ≤ i → a.getLsbD i = false) :
    clmulUpTo a b (m + n) = clmulUpTo a b m := by
  induction n with
  | zero => rfl
  | succ n ih =>
    rw [← Nat.add_assoc, clmulUpTo_succ, ih, ha (m + n) (by omega)]
    exact BitVec.xor_zero

/-- The low word of the product of a 4-bit polynomial with y. -/
theorem low_clmul64_nibble (a y : Word) (ha : ∀ i, 4 ≤ i → a.getLsbD i = false) :
    (clmul64 a y).low = (if a.getLsbD 0 then y else 0) ^^^ (if a.getLsbD 1 then y <<< 1 else 0) ^^^
      (if a.getLsbD 2 then y <<< 2 else 0) ^^^ (if a.getLsbD 3 then y <<< 3 else 0) := by
  have hlow : ∀ (c : Bool) (n : Nat),
      Product.low (if c then y.setWidth 128 <<< n else 0) = if c then y <<< n else 0 := by
    intro c n
    cases c
    · rfl
    · exact low_shiftedCopy y n
  have hzero : (0 : Product).low = 0#64 := rfl
  rw [clmul64, clmulUpTo_of_high_bits_zero a y 4 60 ha]
  simp only [clmulUpTo_succ, clmulUpTo_zero, Product.low_xor, hlow, hzero, BitVec.zero_xor]
  rw [BitVec.shiftLeft_zero]

theorem combTable_even (y : Word) (i : Fin 16) : 2 ≤ i.val → i.val % 2 = 0 →
    (combTable y)[i.val] = (combTable y)[i.val / 2] <<< 1 := by
  fin_cases i <;> simp [combTable]

theorem combTable_odd (y : Word) (i : Fin 16) : i.val % 2 = 1 →
    (combTable y)[i.val] = (combTable y)[i.val - 1] ^^^ y := by
  fin_cases i <;> simp [combTable]

theorem xor_left_comm (a b c : Word) : a ^^^ (b ^^^ c) = b ^^^ (a ^^^ c) := by
  rw [← BitVec.xor_assoc, BitVec.xor_comm a b, BitVec.xor_assoc]

theorem combTable_shifts (y : Word) (i : Fin 16) : (combTable y)[i.val] =
      (if i.val.testBit 0 then y else 0) ^^^ (if i.val.testBit 1 then y <<< 1 else 0) ^^^
        (if i.val.testBit 2 then y <<< 2 else 0) ^^^ (if i.val.testBit 3 then y <<< 3 else 0) := by
  fin_cases i <;>
    simp [combTable, Nat.testBit, BitVec.shiftLeft_xor_distrib, ← BitVec.shiftLeft_add, BitVec.xor_comm,
      xor_left_comm]

theorem getLsbD_ofNat_fin16 (i : Fin 16) (n : Nat) : (BitVec.ofNat 64 i.val).getLsbD n = i.val.testBit n := by
  rw [BitVec.getLsbD, BitVec.toNat_ofNat, Nat.mod_eq_of_lt (by omega)]

theorem combTable_eq_low (y : Word) (i : Fin 16) : (combTable y)[i.val] = (clmul64 (BitVec.ofNat 64 i.val) y).low := by
  rw [low_clmul64_nibble, combTable_shifts]
  · simp only [getLsbD_ofNat_fin16]
  · intro n hn
    rw [getLsbD_ofNat_fin16]
    exact Nat.testBit_lt_two_pow (i.isLt.trans_le (Nat.pow_le_pow_right Nat.two_pos hn))

/-- Settles O10: the entries are written out, and the low word of a product cuts the shifted copies to 64 bits. -/
theorem combTableEntriesAreLowProducts : Obligations.CombTableEntriesAreLowProducts := by
  unfold Obligations.CombTableEntriesAreLowProducts
  exact fun y => ⟨rfl, rfl, combTable_even y, combTable_odd y, combTable_eq_low y, combTable_shifts y⟩

/-! ### The correction (40_clmul.md R49) -/

theorem getLsbD_windowMask : ∀ j, j < 64 → (0xEEEEEEEEEEEEEEEE#64).getLsbD j = decide (0 < j % 4) := by decide

/-- One pass drops the bits at window offset 0 and moves the others down by one. -/
theorem getLsbD_correctionStep_fst (y : Word) (p : Nat) (acc : Word × Word) (j : Nat) :
    (correctionStep y p acc).1.getLsbD j = (decide (0 < (j + 1) % 4) && acc.1.getLsbD (j + 1)) := by
  rw [correctionStep, BitVec.getLsbD_ushiftRight, BitVec.getLsbD_and, Nat.add_comm 1 j]
  by_cases hj : j + 1 < 64
  · rw [getLsbD_windowMask _ hj, Bool.and_comm]
  · simp [BitVec.getLsbD_of_ge acc.1 (j + 1) (by omega)]

/-- The mask made from one bit: all ones or all zeros. -/
theorem and_zero_sub_ofBool (c : Word) (b : Bool) :
    c &&& (0#64 - (BitVec.ofBool b).setWidth 64) = if b then c else 0 := by
  cases b
  · simp
  · have hones : 0#64 - (BitVec.ofBool true).setWidth 64 = BitVec.allOnes 64 := by decide
    rw [hones, BitVec.and_allOnes, if_pos rfl]

/-- One pass adds into `hi` what it keeps of X, where the bit of Y is set. -/
theorem getLsbD_correctionStep_snd (y : Word) (p : Nat) (acc : Word × Word) (j : Nat) :
    (correctionStep y p acc).2.getLsbD j =
      (acc.2.getLsbD j ^^ ((correctionStep y p acc).1.getLsbD j && y.getLsbD (63 - p))) := by
  simp only [correctionStep, and_zero_sub_ofBool, BitVec.getLsbD_xor]
  cases y.getLsbD (63 - p) <;> simp

theorem decide_offset_succ (p j : Nat) :
    (decide (0 < (j + 1) % 4) && decide (p < (j + 1 + p + 1) % 4)) = decide (p + 1 < (j + (p + 1) + 1) % 4) := by
  rw [← Bool.decide_and, decide_eq_decide]
  omega

/-- Settles O11: each pass keeps one window offset less and has moved X down by one bit more. -/
theorem correctionRestoresLostBits : Obligations.CorrectionRestoresLostBits := by
  unfold Obligations.CorrectionRestoresLostBits
  intro x y hi j _ c0 c1 c2
  have h0 : ∀ j, c0.1.getLsbD j = (decide (0 < (j + 1) % 4) && x.getLsbD (j + 1)) :=
    getLsbD_correctionStep_fst y 0 (x, hi)
  have h1 : ∀ j, c1.1.getLsbD j = (decide (1 < (j + 2) % 4) && x.getLsbD (j + 2)) := by
    intro j
    rw [getLsbD_correctionStep_fst y 1 c0 j, h0, ← Bool.and_assoc, decide_offset_succ 0 j]
  have h2 : c2.1.getLsbD j = (decide (2 < (j + 3) % 4) && x.getLsbD (j + 3)) := by
    rw [getLsbD_correctionStep_fst y 2 c1 j, h1, ← Bool.and_assoc, decide_offset_succ 1 j]
  refine ⟨h0 j, h1 j, h2, ?added⟩
  case added =>
    calc c2.2.getLsbD j = (c1.2.getLsbD j ^^ (c2.1.getLsbD j && y.getLsbD 61)) :=
          getLsbD_correctionStep_snd y 2 c1 j
      _ = (c0.2.getLsbD j ^^ (c1.1.getLsbD j && y.getLsbD 62) ^^ (c2.1.getLsbD j && y.getLsbD 61)) := by
          rw [getLsbD_correctionStep_snd y 1 c0 j]
      _ = _ := by rw [getLsbD_correctionStep_snd y 0 (x, hi) j]

end Sys2Proof.Machine
end

section
/-! The reference datapath computes the product: both are linear in X, and they agree on the powers of t
(40_clmul.md R50). -/

namespace Sys2Proof.Machine

/-! ### Linear maps from words to products -/

/-- A map that turns XOR into XOR. -/
def XorLinear (f : Word → Product) : Prop := ∀ a b, f (a ^^^ b) = f a ^^^ f b

theorem XorLinear.map_zero {f : Word → Product} (hf : XorLinear f) : f 0 = 0 := by
  have h := hf 0 0
  rwa [BitVec.xor_self, BitVec.xor_self] at h

theorem XorLinear.xor {f g : Word → Product} (hf : XorLinear f) (hg : XorLinear g) :
    XorLinear fun a => f a ^^^ g a := by
  intro a b
  simp only [hf a b, hg a b]
  ac_rfl

/-- The n lowest bits of a word. -/
def lowBits (a : Word) (n : Nat) : Word := (a.setWidth n).setWidth 64

theorem getLsbD_lowBits (a : Word) (n i : Nat) : (lowBits a n).getLsbD i = (decide (i < n) && a.getLsbD i) := by
  rw [lowBits, BitVec.getLsbD_setWidth, BitVec.getLsbD_setWidth]
  by_cases hi : i < 64
  · rw [decide_eq_true hi, Bool.true_and]
  · rw [BitVec.getLsbD_of_ge a i (by omega), Bool.and_false, Bool.and_false]

theorem lowBits_succ (a : Word) (n : Nat) (hn : n < 64) :
    lowBits a (n + 1) = lowBits a n ^^^ (if a.getLsbD n then 1#64 <<< n else 0) := by
  apply BitVec.eq_of_getLsbD_eq
  intro i _
  have hterm : (if a.getLsbD n then 1#64 <<< n else 0).getLsbD i = (decide (n = i) && a.getLsbD n) := by
    cases a.getLsbD n
    · simp
    · simp only [if_true, getLsbD_one_shiftLeft n i hn, Bool.and_true]
  rw [BitVec.getLsbD_xor, getLsbD_lowBits, getLsbD_lowBits, hterm]
  by_cases hni : n = i
  · subst hni
    simp only [Nat.lt_succ_self, Nat.lt_irrefl, decide_true, decide_false, Bool.true_and, Bool.false_and,
      Bool.false_xor]
  · have hlt : i < n + 1 ↔ i < n := by omega
    simp only [hlt, hni, decide_false, Bool.false_and, Bool.xor_false]

/-- A linear map is known from its values on the powers of t. -/
theorem XorLinear.eq_of_eq_on_powers {f g : Word → Product} (hf : XorLinear f) (hg : XorLinear g)
    (h : ∀ i, i < 64 → f (1#64 <<< i) = g (1#64 <<< i)) (a : Word) : f a = g a := by
  have hlow : ∀ n, n ≤ 64 → f (lowBits a n) = g (lowBits a n) := by
    intro n hn
    induction n with
    | zero =>
      have hzero : lowBits a 0 = 0 := by simp [lowBits, BitVec.of_length_zero]
      rw [hzero, hf.map_zero, hg.map_zero]
    | succ n ih =>
      rw [lowBits_succ a n (by omega), hf, hg, ih (by omega)]
      split
      · rw [h n (by omega)]
      · rw [hf.map_zero, hg.map_zero]
  have hall : lowBits a 64 = a := by simp [lowBits]
  rw [← hall, hlow 64 le_rfl]

theorem xorLinear_clmul64 (y : Word) : XorLinear (clmul64 · y) := fun a b => clmul64_xor_left a b y

/-! ### The window pass (40_clmul.md R48) -/

/-- The table entry that the window of x at bit position k selects. -/
def windowEntry (y x : Word) (k : Nat) : Word := (combTable y)[(x.extractLsb' k 4).toFin]

/-- The XOR of the n lowest windows' entries, each at its window's position. -/
def windowSum (y x : Word) : Nat → Product
  | 0 => 0
  | n + 1 => windowSum y x n ^^^ ((windowEntry y x (4 * n)).setWidth 128 <<< (4 * n))

/-- The low word of g at position k is shifted left, and what leaves it goes into the high word. -/
theorem shiftedCopy_eq_append (g : Word) (k : Nat) (hk : k < 64) :
    g.setWidth 128 <<< k = (if k = 0 then 0 else g >>> (64 - k)) ++ g <<< k := by
  apply BitVec.eq_of_getLsbD_eq
  intro i hi
  rw [BitVec.getLsbD_append, BitVec.getLsbD_shiftLeft, BitVec.getLsbD_shiftLeft, BitVec.getLsbD_setWidth]
  have hsub : i - k < 128 := by omega
  by_cases hlow : i < 64
  · simp only [hi, hlow, hsub, decide_true, if_true, Bool.true_and]
  · have hik : ¬ i < k := by omega
    by_cases hk0 : k = 0
    · subst hk0
      rw [if_neg hlow, if_pos rfl, BitVec.getLsbD_of_ge g _ (by omega)]
      simp
    · have hshift : 64 - k + (i - 64) = i - k := by omega
      simp only [hi, hlow, hik, hk0, hsub, hshift, BitVec.getLsbD_ushiftRight, decide_true, decide_false, if_false,
        Bool.not_false, Bool.true_and]

theorem windowStep_append (y x : Word) (k : Nat) (hk : k < 64) (acc : Word × Word) :
    (windowStep (combTable y) x k acc).2 ++ (windowStep (combTable y) x k acc).1 =
      (acc.2 ++ acc.1) ^^^ ((windowEntry y x k).setWidth 128 <<< k) := by
  rw [shiftedCopy_eq_append _ k hk, BitVec.xor_append]
  by_cases hk0 : k = 0
  · simp [windowStep, windowEntry, hk0]
  · simp [windowStep, windowEntry, hk0]

theorem windowPass_append (y x : Word) (n : Nat) (hn : n ≤ 16) (acc : Word × Word) :
    (windowPass (combTable y) x n acc).2 ++ (windowPass (combTable y) x n acc).1 =
      (acc.2 ++ acc.1) ^^^ windowSum y x n := by
  induction n generalizing acc with
  | zero => simp [windowSum]
  | succ n ih =>
    rw [windowPass_succ, ih (by omega), windowStep_append y x _ (by omega), windowSum]
    ac_rfl

theorem windowEntry_eq_low (y x : Word) (k : Nat) :
    windowEntry y x k = (clmul64 ((x.extractLsb' k 4).setWidth 64) y).low := by
  rw [← BitVec.ofNat_toNat]
  exact combTable_eq_low y (x.extractLsb' k 4).toFin

theorem windowEntry_xor (y a b : Word) (k : Nat) :
    windowEntry y (a ^^^ b) k = windowEntry y a k ^^^ windowEntry y b k := by
  rw [windowEntry_eq_low, windowEntry_eq_low, windowEntry_eq_low, BitVec.extractLsb'_xor, BitVec.setWidth_xor,
    clmul64_xor_left, Product.low_xor]

theorem xorLinear_windowSum (y : Word) (n : Nat) : XorLinear (windowSum y · n) := by
  induction n with
  | zero => exact fun _ _ => BitVec.xor_zero.symm
  | succ n ih =>
    refine ih.xor fun a b => ?_
    rw [windowEntry_xor, BitVec.setWidth_xor, BitVec.shiftLeft_xor_distrib]

theorem window_one_shiftLeft (i n : Nat) (hi : i < 64) : ((1#64 <<< i).extractLsb' (4 * n) 4).setWidth 64 =
    if i / 4 = n then 1#64 <<< (i % 4) else 0#64 := by
  apply BitVec.eq_of_getLsbD_eq
  intro j hj
  rw [BitVec.getLsbD_setWidth, BitVec.getLsbD_extractLsb', getLsbD_one_shiftLeft i _ hi, decide_eq_true hj,
    Bool.true_and, ← Bool.decide_and]
  split
  · rw [getLsbD_one_shiftLeft _ _ (by omega), decide_eq_decide]
    omega
  · rw [BitVec.getLsbD_zero, decide_eq_false_iff_not]
    omega

/-- Of a power of t only its own window is not zero. -/
theorem windowEntry_power (y : Word) (i n : Nat) (hi : i < 64) :
    windowEntry y (1#64 <<< i) (4 * n) = if i / 4 = n then y <<< (i % 4) else 0 := by
  rw [windowEntry_eq_low, window_one_shiftLeft i n hi]
  split
  · rw [clmul64_one_shiftLeft _ y (by omega), low_shiftedCopy]
  · exact congrArg Product.low (clmul64_zero_left y)

theorem windowSum_power (y : Word) (i n : Nat) (hi : i < 64) : windowSum y (1#64 <<< i) n =
    if i / 4 < n then (y <<< (i % 4)).setWidth 128 <<< (4 * (i / 4)) else 0 := by
  induction n with
  | zero => rfl
  | succ n ih =>
    rw [windowSum, ih, windowEntry_power y i n hi]
    rcases Nat.lt_trichotomy (i / 4) n with h | h | h
    · simp [h, Nat.lt_succ_of_lt h, h.ne]
    · simp [h]
    · simp [h.ne', show ¬ i / 4 < n + 1 by omega, show ¬ i / 4 < n by omega]

/-! ### The correction as a summand (40_clmul.md R49) -/

/-- Bit j of what the three passes of the correction add to `hi`: the terms Y[63 − p] · X[j + p + 1] that the table
entries have lost. -/
def lostBit (x y : Word) (j : Nat) : Bool :=
  (decide (0 < (j + 1) % 4) && x.getLsbD (j + 1) && y.getLsbD 63) ^^
    (decide (1 < (j + 2) % 4) && x.getLsbD (j + 2) && y.getLsbD 62) ^^
    (decide (2 < (j + 3) % 4) && x.getLsbD (j + 3) && y.getLsbD 61)

theorem getLsbD_correction (x y hi : Word) (j : Nat) (hj : j < 64) :
    (correction x y hi).getLsbD j = (hi.getLsbD j ^^ lostBit x y j) := by
  obtain ⟨h0, h1, h2, hsum⟩ := correctionRestoresLostBits x y hi j hj
  rw [hsum, h0, h1, h2, lostBit, Bool.xor_assoc, Bool.xor_assoc, Bool.xor_assoc]

theorem xor_pairs_comm : ∀ a b a' b' a'' b'' : Bool,
    ((a ^^ b) ^^ (a' ^^ b') ^^ (a'' ^^ b'')) = ((a ^^ a' ^^ a'') ^^ (b ^^ b' ^^ b'')) := by decide

theorem lostBit_xor (a b y : Word) (j : Nat) : lostBit (a ^^^ b) y j = (lostBit a y j ^^ lostBit b y j) := by
  simp only [lostBit, BitVec.getLsbD_xor, Bool.and_xor_distrib_left, Bool.and_xor_distrib_right, xor_pairs_comm]

/-- What the correction pass adds to the product. -/
def correctionTerm (y x : Word) : Product := correction x y 0#64 ++ 0#64

theorem xorLinear_correctionTerm (y : Word) : XorLinear (correctionTerm y) := by
  have hlinear : ∀ a b, correction (a ^^^ b) y 0#64 = correction a y 0#64 ^^^ correction b y 0#64 := by
    intro a b
    apply BitVec.eq_of_getLsbD_eq
    intro j hj
    simp only [BitVec.getLsbD_xor, getLsbD_correction _ _ _ _ hj, BitVec.getLsbD_zero, Bool.false_xor, lostBit_xor]
  intro a b
  rw [correctionTerm, correctionTerm, correctionTerm, BitVec.xor_append, hlinear, BitVec.xor_self]

theorem datapath_eq_xor (y x : Word) : datapath x y = correctionTerm y x ^^^ windowSum y x 16 := by
  have hcorrection : ∀ hi, correction x y hi = correction x y 0#64 ^^^ hi := by
    intro hi
    apply BitVec.eq_of_getLsbD_eq
    intro j hj
    rw [BitVec.getLsbD_xor, getLsbD_correction x y hi j hj, getLsbD_correction x y 0#64 j hj, BitVec.getLsbD_zero,
      Bool.false_xor, Bool.xor_comm]
  have hpass := windowPass_append y x 16 le_rfl (0#64, 0#64)
  rw [BitVec.zero_append_zero, BitVec.zero_xor] at hpass
  rw [← hpass, correctionTerm, BitVec.xor_append, ← hcorrection, BitVec.zero_xor]
  rfl

theorem xorLinear_datapath (y : Word) : XorLinear (datapath · y) := by
  intro a b
  simp only [datapath_eq_xor]
  exact (xorLinear_correctionTerm y).xor (xorLinear_windowSum y 16) a b

/-! ### On the powers of t -/

theorem getLsbD_shiftedWord (y : Word) (i k : Nat) (hk : k < 128) :
    (y.setWidth 128 <<< i).getLsbD k = (decide (i ≤ k) && y.getLsbD (k - i)) := by
  have hsub : k - i < 128 := by omega
  simp only [BitVec.getLsbD_shiftLeft, BitVec.getLsbD_setWidth, hk, hsub, decide_true, Bool.true_and, ← decide_not,
    Nat.not_lt]

/-- The entry of a power of t has the bits of the shifted word below the end of its window's 64 bits. -/
theorem getLsbD_shiftedEntry (y : Word) (i k : Nat) (hk : k < 128) :
    ((y <<< (i % 4)).setWidth 128 <<< (4 * (i / 4))).getLsbD k =
      (decide (i ≤ k ∧ k < 64 + 4 * (i / 4)) && y.getLsbD (k - i)) := by
  have hsub : k - 4 * (i / 4) - i % 4 = k - i := by omega
  rw [getLsbD_shiftedWord _ _ k hk, BitVec.getLsbD_shiftLeft, hsub, ← Bool.and_assoc, ← Bool.and_assoc, ← decide_not,
    ← Bool.decide_and, ← Bool.decide_and]
  congr 1
  rw [decide_eq_decide]
  omega

/-- The correction of a power of t has the bits of the shifted word from that end on. -/
theorem lostBit_one_shiftLeft (i j : Nat) (y : Word) (hi : i < 64) : lostBit (1#64 <<< i) y j =
    (decide (4 * (i / 4) ≤ j ∧ j < i) && y.getLsbD (64 + j - i)) := by
  have hpass : ∀ p, p ≤ 2 → (decide (p < (j + (p + 1)) % 4) && decide (i = j + (p + 1)) && y.getLsbD (63 - p)) =
      (decide (i = j + (p + 1)) && (decide (4 * (i / 4) ≤ j) && y.getLsbD (64 + j - i))) := by
    intro p hp
    by_cases hij : i = j + (p + 1)
    · have hdegree : 63 - p = 64 + j - i := by omega
      have hkept : p < (j + (p + 1)) % 4 ↔ 4 * (i / 4) ≤ j := by omega
      simp only [hkept, decide_eq_true hij, hdegree, Bool.and_true, Bool.true_and]
    · simp only [hij, decide_false, Bool.and_false, Bool.false_and]
  simp only [lostBit, getLsbD_one_shiftLeft i _ hi]
  rw [hpass 0 (by omega), hpass 1 (by omega), hpass 2 (by omega)]
  by_cases hij : j < i
  · by_cases hcut : 4 * (i / 4) ≤ j
    · obtain h | h | h : i = j + 1 ∨ i = j + 2 ∨ i = j + 3 := by omega
      all_goals simp [h]
    · simp [hcut]
  · have hne : ∀ p, i ≠ j + (p + 1) := by omega
    simp [hij, hne]

theorem datapath_one_shiftLeft (i : Nat) (y : Word) (hi : i < 64) :
    datapath (1#64 <<< i) y = y.setWidth 128 <<< i := by
  rw [datapath_eq_xor, windowSum_power y i 16 hi, if_pos (by omega), correctionTerm]
  apply BitVec.eq_of_getLsbD_eq
  intro k hk
  rw [BitVec.getLsbD_xor, BitVec.getLsbD_append, getLsbD_shiftedEntry y i k hk, getLsbD_shiftedWord y i k hk]
  by_cases hlow : k < 64
  · have hentry : k < 64 + 4 * (i / 4) := by omega
    simp [hlow, hentry]
  · have hdegree : 64 + (k - 64) - i = k - i := by omega
    rw [if_neg hlow, getLsbD_correction _ _ _ _ (by omega), lostBit_one_shiftLeft i _ y hi, BitVec.getLsbD_zero,
      Bool.false_xor, hdegree]
    by_cases hcut : k < 64 + 4 * (i / 4)
    · have hlost : ¬ 4 * (i / 4) ≤ k - 64 := by omega
      simp [hlost, hcut]
    · by_cases hik : k - 64 < i
      · have hlost : 4 * (i / 4) ≤ k - 64 ∧ i ≤ k := by omega
        simp [hcut, hik, hlost]
      · rw [BitVec.getLsbD_of_ge y (k - i) (by omega)]
        simp

theorem datapath_eq_clmul64 (x y : Word) : datapath x y = clmul64 x y :=
  (xorLinear_datapath y).eq_of_eq_on_powers (xorLinear_clmul64 y)
    (fun i hi => (datapath_one_shiftLeft i y hi).trans (clmul64_one_shiftLeft i y hi).symm) x

/-- Settles O12: the datapath and the product are linear in X and agree on the powers of t; COMPLETE leaves the table of
the latched Y. -/
theorem datapathComputesProduct : Obligations.DatapathComputesProduct := by
  unfold Obligations.DatapathComputesProduct
  refine ⟨datapath_eq_clmul64, fun s => ?_⟩
  rw [complete_u, complete_pHi, complete_pLo, Product.high_append_low, ← datapath, datapath_eq_clmul64]

end Sys2Proof.Machine
end

section
/-! A completed MULWACC with its frame (40_clmul.md R40), and what a sequence of commands leaves in Z (R51). -/

namespace Sys2Proof.Machine

theorem readByte_accumulate_of_outside {z : Memory} {zoff : BitVec 26} {a : Nat} (p : Product) (h : z.wf = true)
    (ha : ¬ (8 * lowIndex zoff ≤ a ∧ a < 8 * highIndex zoff + 8)) :
    (accumulate z zoff p).readByte a = z.readByte a := by
  refine readByte_accumulate z zoff p a h ?_
  rw [← Bool.not_eq_true, targets_iff]
  simp only [lowIndex, highIndex] at ha
  omega

/-- Settles O13: ISSUE latches the command and COMPLETE accumulates its product. -/
theorem mulwaccCompletes : Obligations.MulwaccCompletes := by
  unfold Obligations.MulwaccCompletes
  intro zoff x y s hr ho hc hwf
  refine ⟨_, exec_completes zoff x y s hr ho hc, ?low, ?high, ?bytes, ?frame⟩
  case low => rw [afterMulwacc_z, readWord_accumulate _ _ _ _ hwf, if_pos rfl]
  case high => rw [afterMulwacc_z, readWord_accumulate _ _ _ _ hwf, if_neg (Nat.succ_ne_self _), if_pos rfl]
  case bytes =>
    intro a ha
    rw [afterMulwacc_z, readByte_accumulate_of_outside _ hwf ha]
  case frame =>
    obtain ⟨hb, -⟩ := (cmdReady_iff s).mp hr
    simp [clearBusy_setBusy s.status hb]

/-! ### A sequence of commands (40_clmul.md R51) -/

/-- The client's stream of a sequence of commands. -/
abbrev commandStream (is : List Instr) : List Event := is.map fun i => .exec (encode i)

/-- The block can run the commands of a sequence, each of them to its COMPLETE. -/
structure CanRun (is : List Instr) (s : State) : Prop where
  /-- the configuration builds a machine (60_exceptions.md R59) -/
  config   : s.cfg.legal = true
  /-- STATUS.BUSY = 0 and STATUS.FAULT = 0 (70_reset_and_hazards.md R70) -/
  ready    : s.cmdReady = true
  /-- Z is in canonical form -/
  buffer   : s.z.wf = true
  /-- every command is in range and races with no open window (60_exceptions.md R53, 20_memory.md R28) -/
  commands : ∀ i ∈ is, inRange s.cfg i = true ∧ noRace s i = true

theorem totalCoefficient_cons (i : Instr) (is : List Instr) (n : Nat) :
    totalCoefficient (i :: is) n = (productCoefficient i n ^^ totalCoefficient is n) := rfl

/-- The sum of products does not depend on their order. -/
theorem totalCoefficient_perm {is js : List Instr} (h : js.Perm is) (n : Nat) :
    totalCoefficient js n = totalCoefficient is n := by
  induction h with
  | nil => rfl
  | cons i _ ih => rw [totalCoefficient_cons, totalCoefficient_cons, ih]
  | swap i j _ => simp only [totalCoefficient_cons, Bool.xor_left_comm]
  | trans _ _ ih₁ ih₂ => rw [ih₁, ih₂]

/-- The first command of a sequence completes, and the block can run the others. -/
theorem step_command_canRun (i : Instr) (is : List Instr) (s : State) (h : CanRun (i :: is) s)
    (ha : s.agenda = commandStream (i :: is)) :
    ∃ t, step s = .next t ∧ CanRun is t ∧ t.agenda = commandStream is ∧
      (∀ n, zCoefficient t.z n = (zCoefficient s.z n ^^ productCoefficient i n)) ∧
      t.pLo = (productOf i).low ∧ t.pHi = (productOf i).high := by
  obtain ⟨hl, hr, hwf, hcommands⟩ := h
  obtain ⟨hrange, hrace⟩ := hcommands i (List.mem_cons_self ..)
  cases i with
  | mulwacc zoff x y =>
    have ho : outOfRange s.cfg zoff = false := by simpa [inRange] using hrange
    have hc : s.racesWith zoff = false := (noRace_iff s zoff x y).mp hrace
    have hstep : step s = .next (afterMulwacc zoff x y (accept (commandStream is) s)) := by
      rw [step_exec_decoded s _ (.mulwacc zoff x y) _ hl hr (decode_encode _) ha]
      exact exec_completes zoff x y _ hr ho (by rwa [accept_racesWith])
    refine ⟨_, hstep, ⟨?config, ?ready, ?buffer, ?commands⟩, ?agenda, ?coefficients, ?low, ?high⟩
    case config => simpa using hl
    case ready => exact afterMulwacc_cmdReady zoff x y _ hr
    case buffer => rw [afterMulwacc_z]; exact wf_accumulate _ _ _ hwf
    case commands =>
      rintro ⟨zoff', x', y'⟩ hmem
      obtain ⟨hrange', hrace'⟩ := hcommands _ (List.mem_cons_of_mem _ hmem)
      refine ⟨by simpa using hrange', ?_⟩
      rw [noRace_iff] at hrace' ⊢
      rw [afterMulwacc_racesWith zoff x y (accept _ s) hr, accept_racesWith, hrace']
    case agenda => simp
    case coefficients =>
      intro n
      rw [afterMulwacc_z, accept_z, zCoefficient_accumulate _ _ _ _ hwf, productCoefficient]
    case low => simp [productOf]
    case high => simp [productOf]

/-- A sequence of commands runs to its end and adds every product to Z. -/
theorem run_commands (is : List Instr) (s : State) (h : CanRun is s) (ha : s.agenda = commandStream is) :
    ∃ t, run is.length s = .next t ∧ t.z.wf = true ∧
      (∀ n, zCoefficient t.z n = (zCoefficient s.z n ^^ totalCoefficient is n)) ∧
      ∀ i, is.getLast? = some i → t.pLo = (productOf i).low ∧ t.pHi = (productOf i).high := by
  induction is generalizing s with
  | nil => exact ⟨s, rfl, h.buffer, fun n => (Bool.xor_false _).symm, by simp⟩
  | cons i is ih =>
    obtain ⟨u, hstep, hu, hagenda, hcoeff, hlow, hhigh⟩ := step_command_canRun i is s h ha
    obtain ⟨t, hrun, hwf, hcoeff', hlast⟩ := ih u hu hagenda
    refine ⟨t, (run_next _ s u hstep).trans hrun, hwf, fun n => ?coefficients, ?last⟩
    case coefficients => rw [hcoeff', hcoeff, totalCoefficient_cons, Bool.xor_assoc]
    case last =>
      cases is with
      | nil =>
        obtain rfl := Host.Outcome.next.inj hrun
        intro j hj
        obtain rfl := Option.some.inj hj
        exact ⟨hlow, hhigh⟩
      | cons j js => rwa [List.getLast?_cons_cons]

/-- Canonical memories with the same coefficients are the same. -/
theorem memory_ext_coefficients {m n : Memory} (hm : m.wf = true) (hn : n.wf = true)
    (h : ∀ k, zCoefficient m k = zCoefficient n k) : m = n := by
  refine memory_ext_words m n hm hn fun j => BitVec.eq_of_getLsbD_eq fun i hi => ?_
  have hword : (64 * j + i) / 64 = j := by omega
  have hbit : (64 * j + i) % 64 = i := by omega
  simpa only [zCoefficient, hword, hbit] using h (64 * j + i)

/-- Settles O19, by induction on the sequence; Z is known from its coefficients, and their sum has no order. -/
theorem commandSequenceXorsProductsIntoZ : Obligations.CommandSequenceXorsProductsIntoZ := by
  unfold Obligations.CommandSequenceXorsProductsIntoZ
  intro is s hl hr hwf hcommands
  have hrun : ∀ js : List Instr, js.Perm is →
      ∃ t, run js.length (proceed (commandStream js) s) = .next t ∧ t.z.wf = true ∧
        (∀ n, zCoefficient t.z n = (zCoefficient s.z n ^^ totalCoefficient js n)) ∧
        ∀ i, js.getLast? = some i → t.pLo = (productOf i).low ∧ t.pHi = (productOf i).high := by
    intro js hperm
    refine run_commands js _ ⟨hl, hr, hwf, ?_⟩ rfl
    rintro ⟨zoff, x, y⟩ hmem
    obtain ⟨hrange, hrace⟩ := hcommands _ (hperm.subset hmem)
    rw [noRace_iff] at hrace ⊢
    exact ⟨hrange, by rwa [proceed_racesWith]⟩
  obtain ⟨t, ht, htwf, hcoeff, hlast⟩ := hrun is (List.Perm.refl is)
  refine ⟨t, ht, hcoeff, hlast, fun js u hperm hu => ?_⟩
  obtain ⟨u', hu', huwf, hcoeff', -⟩ := hrun js hperm
  obtain rfl : u' = u := Host.Outcome.next.inj (hu'.symm.trans hu)
  refine memory_ext_coefficients huwf htwf fun n => ?_
  rw [hcoeff', hcoeff, totalCoefficient_perm hperm]

end Sys2Proof.Machine
end

section
/-! No secret decides what a step does: the public view after a step follows from the public view before it
(40_clmul.md R44). -/

namespace Sys2Proof.Machine

/-! ### The public view after each operation -/

@[simp] theorem publicView_raise (c : Cause) (cmd : BitVec 32) (s : State) : (raise c cmd s).publicView =
    { s.publicView with status := setFault c s.publicView.status, faultCmd := cmd } := rfl

@[simp] theorem publicView_resetBlock (s : State) : (resetBlock s).publicView =
    { s.publicView with
      status := 0, faultCmd := 0, ifCmd := 0, remaining := 0, pos := 0, resultWritten := false } := rfl

@[simp] theorem publicView_latch (w : Transaction) (s : State) : (latch w s).publicView =
    { s.publicView with
      ifCmd := w.cmd, status := setBusy s.publicView.status, remaining := s.publicView.cfg.latency } := rfl

/-- The accesses of a command at `zoff` without their data, newest first. -/
def publicAccesses (zoff : BitVec 26) : List (Bool × BitVec 26) :=
  [(true, zoff + 1), (true, zoff), (false, zoff + 1), (false, zoff)]

/-- Which words the accumulation accesses, and in which order, is decided by the offset alone. -/
theorem map_accesses (z : Memory) (zoff : BitVec 26) (p : Product) :
    (accesses z zoff p).map (fun a => (a.we, a.addr)) = publicAccesses zoff := by
  simp only [accesses, List.map, publicAccesses]

@[simp] theorem publicView_complete (s : State) : (complete s).publicView =
    { s.publicView with
      status := clearBusy s.publicView.status, remaining := 0, resultWritten := true,
      bus := publicAccesses (zoffField s.publicView.ifCmd) ++ s.publicView.bus } := by
  simp [State.publicView, map_accesses, State.ifZoff]

@[simp] theorem publicView_shorten (s : State) : (shorten s).publicView =
    { s.publicView with remaining := s.publicView.remaining - 1 } := rfl

@[simp] theorem publicView_observe (o : Observation) (s : State) : (observe o s).publicView =
    { s.publicView with reads := publicObservation o :: s.publicView.reads } := rfl

@[simp] theorem publicView_putZ (z : Memory) (s : State) : (putZ z s).publicView = s.publicView := rfl

@[simp] theorem publicView_putOthers (os : List OtherCommand) (s : State) : (putOthers os s).publicView =
    { s.publicView with others := os.map (·.zoff) } := rfl

@[simp] theorem publicView_accept (rest : List Event) (s : State) : (accept rest s).publicView =
    { s.publicView with agenda := rest.map publicEvent, pos := s.publicView.pos + 1 } := rfl

@[simp] theorem publicView_proceed (rest : List Event) (s : State) : (proceed rest s).publicView =
    { s.publicView with agenda := rest.map publicEvent } := rfl

theorem map_zoff_eraseIdx (k : Nat) (s : State) :
    (s.others.eraseIdx k).map (·.zoff) = s.publicView.others.eraseIdx k := (List.eraseIdx_map _ _ k).symm

theorem publicView_otherAbandon (k : Nat) (s : State) : (otherAbandon k s).publicView =
    { s.publicView with others := s.publicView.others.eraseIdx k } := by
  rw [otherAbandon, publicView_putOthers, map_zoff_eraseIdx]

/-- An index that names no command in flight erases none, so one equation covers both cases. -/
theorem publicView_otherComplete (k : Nat) (s : State) : (otherComplete k s).publicView =
    { s.publicView with others := s.publicView.others.eraseIdx k } := by
  unfold otherComplete
  split
  next hk =>
    have hlen : s.publicView.others.length ≤ k := by simpa [State.publicView] using hk
    rw [List.eraseIdx_of_length_le hlen]
  next => rw [publicView_putOthers, publicView_putZ, map_zoff_eraseIdx]

/-! ### What two states with the same public view have in common -/

section
variable {s t : State} (h : s.publicView = t.publicView)
include h

theorem cfg_of_publicView : s.cfg = t.cfg := congrArg PublicView.cfg h
theorem status_of_publicView : s.status = t.status := congrArg PublicView.status h
theorem ifCmd_of_publicView : s.ifCmd = t.ifCmd := congrArg PublicView.ifCmd h
theorem busy_of_publicView : s.busy = t.busy := congrArg busyBit (status_of_publicView h)

theorem cmdReady_of_publicView : s.cmdReady = t.cmdReady :=
  congrArg (fun status => !busyBit status && !faultBit status) (status_of_publicView h)

theorem windows_of_publicView : s.windows = t.windows := by
  have hothers : s.others.map (·.zoff) = t.others.map (·.zoff) := congrArg PublicView.others h
  rw [State.windows, State.windows, ownWindow_congr t s (busy_of_publicView h) (ifCmd_of_publicView h), hothers]

theorem racesAt_of_publicView (j : Nat) : s.racesAt j = t.racesAt j := by
  rw [State.racesAt, State.racesAt, windows_of_publicView h]

theorem racesWith_of_publicView (zoff : BitVec 26) : s.racesWith zoff = t.racesWith zoff := by
  rw [State.racesWith, State.racesWith, windows_of_publicView h]

theorem publicView_tick : (tick s).publicView = (tick t).publicView := by
  have hremaining : s.remaining = t.remaining := congrArg PublicView.remaining h
  rw [tick, tick, busy_of_publicView h, hremaining]
  split
  · split
    · rw [publicView_complete, publicView_complete, h]
    · rw [publicView_shorten, publicView_shorten, h]
  · exact h

theorem publicOutcome_accessZ (j : Nat) (f g : State → State) (hfg : (f s).publicView = (g t).publicView) :
    publicOutcome (accessZ j s f) = publicOutcome (accessZ j t g) := by
  rw [accessZ, accessZ, cfg_of_publicView h, racesAt_of_publicView h]
  split_ifs
  · rfl
  · rfl
  · exact congrArg Host.Outcome.next hfg

theorem publicOutcome_readResult (o o' : Observation) (ho : publicObservation o = publicObservation o') :
    publicOutcome (readResult o s) = publicOutcome (readResult o' t) := by
  have hwritten : s.resultWritten = t.resultWritten := congrArg PublicView.resultWritten h
  rw [readResult, readResult, hwritten]
  split
  · simp only [publicOutcome, publicView_observe, h, ho]
  · rfl

theorem publicOutcome_otherIssue (w w' : Transaction) (hw : w.cmd = w'.cmd) :
    publicOutcome (otherIssue w s) = publicOutcome (otherIssue w' t) := by
  have hothers : s.others.map (·.zoff) = t.others.map (·.zoff) := congrArg PublicView.others h
  by_cases hm : isMulwacc w.cmd = true
  · simp only [otherIssue, decode_mulwacc w hm, decode_mulwacc w' (hw ▸ hm), cfg_of_publicView h,
      racesWith_of_publicView h, hw]
    split_ifs
    · exact congrArg Host.Outcome.next h
    · rfl
    · simp only [publicOutcome, publicView_putOthers, List.map_append, hothers, h, List.map]
  · obtain ⟨e, he⟩ := decode_illegal w (by simpa using hm)
    obtain ⟨e', he'⟩ := decode_illegal w' (by simpa [← hw] using hm)
    simp only [otherIssue, he, he']
    exact congrArg Host.Outcome.next h

/-! ### The events of a command -/

theorem publicOutcome_issueInstr (zoff : BitVec 26) (x y x' y' : Word) :
    publicOutcome (issueInstr (.mulwacc zoff x y) s) = publicOutcome (issueInstr (.mulwacc zoff x' y') t) := by
  simp only [issueInstr, issueMulwacc, cmdReady_of_publicView h, cfg_of_publicView h, racesWith_of_publicView h]
  split_ifs
  · rfl
  · simp only [publicOutcome, publicView_raise, encode_cmd, h]
  · rfl
  · simp only [publicOutcome, publicView_latch, encode_cmd, h]

end

/-- Outcomes that look the same are next states with the same public view, or the same stop. -/
theorem publicOutcome_eq_cases {a b : Host.Outcome State Fault Refusal} (h : publicOutcome a = publicOutcome b) :
    (∃ s t, a = .next s ∧ b = .next t ∧ s.publicView = t.publicView) ∨ (∃ r, a = .fault r ∧ b = .fault r) ∨
      ∃ r, a = .refused r ∧ b = .refused r := by
  cases a with
  | next s =>
    cases b with
    | next t => exact .inl ⟨s, t, rfl, rfl, Host.Outcome.next.inj h⟩
    | _ => cases h
  | fault r =>
    cases b with
    | fault r' => exact .inr (.inl ⟨r, rfl, congrArg Host.Outcome.fault (Host.Outcome.fault.inj h).symm⟩)
    | _ => cases h
  | refused r =>
    cases b with
    | refused r' => exact .inr (.inr ⟨r, rfl, congrArg Host.Outcome.refused (Host.Outcome.refused.inj h).symm⟩)
    | _ => cases h

theorem publicOutcome_finish {a b : Host.Outcome State Fault Refusal} (h : publicOutcome a = publicOutcome b) :
    publicOutcome (finish a) = publicOutcome (finish b) := by
  obtain ⟨s, t, rfl, rfl, hview⟩ | ⟨r, rfl, rfl⟩ | ⟨r, rfl, rfl⟩ := publicOutcome_eq_cases h
  · simp only [finish, publicOutcome, busy_of_publicView hview]
    split
    · rw [publicView_complete, publicView_complete, hview]
    · rw [hview]
  · rfl
  · rfl

/-- The operands do not decide the public outcome of a way to run commands. -/
def RunsPublicly (run : Instr → State → Host.Outcome State Fault Refusal) : Prop :=
  ∀ (zoff : BitVec 26) (x y x' y' : Word) (s t : State), s.publicView = t.publicView →
    publicOutcome (run (.mulwacc zoff x y) s) = publicOutcome (run (.mulwacc zoff x' y') t)

theorem runsPublicly_issueInstr : RunsPublicly issueInstr :=
  fun zoff x y x' y' _ _ h => publicOutcome_issueInstr h zoff x y x' y'

theorem runsPublicly_exec : RunsPublicly exec :=
  fun zoff x y x' y' _ _ h => publicOutcome_finish (publicOutcome_issueInstr h zoff x y x' y')

section
variable {run : Instr → State → Host.Outcome State Fault Refusal} (hrun : RunsPublicly run) {w w' : Transaction}
  (hw : w.cmd = w'.cmd) {s t : State} (h : s.publicView = t.publicView)
include hrun hw h

theorem publicOutcome_dispatchCommand :
    publicOutcome (dispatchCommand run w s) = publicOutcome (dispatchCommand run w' t) := by
  rcases dispatchCommand_cases run w s with ⟨hm, he⟩ | ⟨hm, he⟩
  · rcases dispatchCommand_cases run w' t with ⟨-, he'⟩ | ⟨hm', -⟩
    · simp only [he, he', publicOutcome, publicView_raise, h, hw]
    · rw [hw, hm'] at hm
      cases hm
  · rcases dispatchCommand_cases run w' t with ⟨hm', -⟩ | ⟨-, he'⟩
    · rw [hw, hm'] at hm
      cases hm
    · rw [he, he', hw]
      exact hrun _ _ _ _ _ _ _ h

theorem publicOutcome_offer {rest rest' : List Event} (hrest : rest.map publicEvent = rest'.map publicEvent) :
    publicOutcome (offer run w rest s) = publicOutcome (offer run w' rest' t) := by
  rw [offer, offer, cmdReady_of_publicView h, busy_of_publicView h]
  split_ifs
  · refine publicOutcome_dispatchCommand hrun hw ?_
    rw [publicView_accept, publicView_accept, h, hrest]
  · exact congrArg Host.Outcome.next (publicView_tick h)
  · rfl

end

/-! ### A step -/

/-- An event and its public part have the same public outcome in states with the same public view. -/
theorem publicOutcome_takeEvent (e : Event) {rest rest' : List Event} {s t : State}
    (h : s.publicView = t.publicView) (hrest : rest.map publicEvent = rest'.map publicEvent) :
    publicOutcome (takeEvent e rest s) = publicOutcome (takeEvent (publicEvent e) rest' t) := by
  have hproceed : (proceed rest s).publicView = (proceed rest' t).publicView := by
    rw [publicView_proceed, publicView_proceed, h, hrest]
  cases e with
  | exec w => exact publicOutcome_offer runsPublicly_exec (w := w) (w' := publicTransaction w) rfl h hrest
  | issue w => exact publicOutcome_offer runsPublicly_issueInstr (w := w) (w' := publicTransaction w) rfl h hrest
  | cycle => exact congrArg Host.Outcome.next (publicView_tick hproceed)
  | wait =>
    simp only [takeEvent, publicEvent, busy_of_publicView h]
    split
    · exact congrArg Host.Outcome.next (publicView_tick h)
    · exact congrArg Host.Outcome.next hproceed
  | readZ j =>
    simp only [takeEvent, publicEvent, clientReadZ]
    refine publicOutcome_accessZ hproceed j _ _ ?_
    rw [publicView_observe, publicView_observe, hproceed, publicObservation, publicObservation]
  | writeZ j v =>
    simp only [takeEvent, publicEvent, clientWriteZ]
    refine publicOutcome_accessZ hproceed j _ _ ?_
    rw [publicView_putZ, publicView_putZ, hproceed]
  | readPLo => exact publicOutcome_readResult hproceed _ _ rfl
  | readPHi => exact publicOutcome_readResult hproceed _ _ rfl
  | readStatus =>
    simp only [takeEvent, publicEvent, publicOutcome, clientReadStatus, publicView_observe,
      status_of_publicView hproceed, hproceed]
  | readFaultCmd =>
    have hcmd : (proceed rest s).faultCmd = (proceed rest' t).faultCmd := congrArg PublicView.faultCmd hproceed
    simp only [takeEvent, publicEvent, publicOutcome, clientReadFaultCmd, publicView_observe, hcmd, hproceed]
  | reset => simp only [takeEvent, publicEvent, publicOutcome, publicView_resetBlock, hproceed]
  | otherIssue w => exact publicOutcome_otherIssue hproceed w _ rfl
  | otherComplete k => simp only [takeEvent, publicEvent, publicOutcome, publicView_otherComplete, hproceed]
  | otherAbandon k => simp only [takeEvent, publicEvent, publicOutcome, publicView_otherAbandon, hproceed]

theorem publicOutcome_nextEvent {s t : State} (h : s.publicView = t.publicView) :
    publicOutcome (nextEvent s) = publicOutcome (nextEvent t) := by
  have hagenda : s.agenda.map publicEvent = t.agenda.map publicEvent := congrArg PublicView.agenda h
  unfold nextEvent
  cases hs : s.agenda with
  | nil =>
    rw [hs] at hagenda
    rw [List.map_eq_nil_iff.mp hagenda.symm]
    exact congrArg Host.Outcome.next (publicView_tick h)
  | cons e rest =>
    rw [hs, List.map_cons] at hagenda
    obtain ⟨e', rest', ht, he, hrest⟩ := List.map_eq_cons_iff.mp hagenda.symm
    rw [ht]
    calc publicOutcome (takeEvent e rest s) = publicOutcome (takeEvent (publicEvent e) rest t) :=
          publicOutcome_takeEvent e h rfl
      _ = publicOutcome (takeEvent (publicEvent e') rest t) := by rw [he]
      _ = publicOutcome (takeEvent e' rest' t) := (publicOutcome_takeEvent e' rfl hrest).symm

theorem publicOutcome_step {s t : State} (h : s.publicView = t.publicView) :
    publicOutcome (step s) = publicOutcome (step t) := by
  rw [step, step, cfg_of_publicView h]
  split
  · exact publicOutcome_nextEvent h
  · rfl

/-- Settles O45, by induction on the number of steps: the public view of a step's outcome follows from the public view
of the state. -/
theorem runsDoNotDependOnSecrets : Obligations.RunsDoNotDependOnSecrets := by
  unfold Obligations.RunsDoNotDependOnSecrets
  intro n
  induction n with
  | zero => exact fun s t h => congrArg Host.Outcome.next h
  | succ n ih =>
    intro s t h
    obtain ⟨s', t', hs, ht, hview⟩ | ⟨r, hs, ht⟩ | ⟨r, hs, ht⟩ := publicOutcome_eq_cases (publicOutcome_step h)
    · rw [run_next n s s' hs, run_next n t t' ht, ih s' t' hview]
    · rw [run_fault n s r hs, run_fault n t r ht]
    · rw [run_refused n s r hs, run_refused n t r ht]

end Sys2Proof.Machine
end

section
/-! The fault entry at ISSUE and its frame (60_exceptions.md R53 to R55, R58), and the commands of other instances
(R64). -/

namespace Sys2Proof.Machine

/-! ### The fault entry -/

/-- The fault entry writes FAULT and CAUSE of STATUS and no other bit (60_exceptions.md R55). -/
theorem getLsbD_setFault_of_ne (c : Cause) (status : BitVec 32) (i : Nat) (hfault : i ≠ 0)
    (hcause : ¬ (4 ≤ i ∧ i < 8)) : (setFault c status).getLsbD i = status.getLsbD i := by
  rw [setFault_bit]
  simp [hfault, hcause]

/-- The range check as 60_exceptions.md R53 writes it. -/
theorem outOfRange_of_lt (c : Config) (zoff : BitVec 26) (h : c.extWords - 2 < zoff.toNat) :
    outOfRange c zoff = true := by
  rw [outOfRange_iff]
  omega

/-- The cause that a faulting command records at its ISSUE: ILLEGAL_COMMAND is checked first (60_exceptions.md R54). -/
def issueCause (cmd : BitVec 32) : Cause := if isMulwacc cmd = false then .illegalCommand else .offsetRange

theorem code_issueCause (cmd : BitVec 32) : (issueCause cmd).code =
    if isMulwacc cmd = false then Cause.illegalCommand.code else Cause.offsetRange.code :=
  apply_ite Cause.code _ _ _

/-- A ready block that is offered a command it cannot run enters the fault state, merged or split. -/
theorem step_command_faults (s : State) (t : Transaction) (rest : List Event) (hl : s.cfg.legal = true)
    (hr : s.cmdReady = true) (ha : s.agenda = .issue t :: rest ∨ s.agenda = .exec t :: rest)
    (hbad : isMulwacc t.cmd = false ∨ outOfRange s.cfg (zoffField t.cmd) = true) :
    step s = .next (raise (issueCause t.cmd) t.cmd (accept rest s)) := by
  by_cases hm : isMulwacc t.cmd = false
  · rw [issueCause, if_pos hm]
    exact step_command_illegal s t rest hl hr ha hm
  · rw [issueCause, if_neg hm]
    exact step_command_outOfRange s t rest hl hr ha (by simpa using hm) (hbad.resolve_left hm)

/-- Settles O21: whichever check fails, the step is one fault entry, and its cause is that of the first check. -/
theorem issueFaultsInPriorityOrder : Obligations.IssueFaultsInPriorityOrder := by
  unfold Obligations.IssueFaultsInPriorityOrder
  intro s t rest hl hr ha hbad
  obtain ⟨hb, -⟩ := (cmdReady_iff s).mp hr
  refine ⟨_, step_command_faults s t rest hl hr ha.symm (hbad.imp_right (outOfRange_of_lt _ _)), raise_fault _ _ _,
    ?busy, cmdReady_of_fault _ (raise_fault _ _ _), ?cause, rfl, getLsbD_setFault_of_ne _ _, rfl⟩
  case busy => rw [raise_busy, accept_busy, hb]
  case cause => rw [raise_cause, code_issueCause]

/-- Settles O17: MULWACC out of range is the fault entry. -/
theorem mulwaccOutOfRangeFaults : Obligations.MulwaccOutOfRangeFaults := by
  unfold Obligations.MulwaccOutOfRangeFaults
  intro zoff x y s _ hr hrange
  obtain ⟨hb, -⟩ := (cmdReady_iff s).mp hr
  refine ⟨_, execMulwacc_raises zoff x y s hr (outOfRange_of_lt _ _ hrange), raise_fault _ _ _, raise_cause _ _ _,
    ?busy, cmdReady_of_fault _ (raise_fault _ _ _), rfl, getLsbD_setFault_of_ne _ _, rfl⟩
  case busy => rw [raise_busy, hb]

/-! ### Where MULWACC does not run -/

theorem cmdReady_eq_false_iff (s : State) : s.cmdReady = false ↔ s.busy = true ∨ s.fault = true := by
  simp [State.cmdReady, ← Bool.not_eq_true, imp_iff_not_or]

/-- Settles O18: ISSUE asks for a ready block, and the windows of an idle block are those of other instances. -/
theorem mulwaccBlockedOrRacing : Obligations.MulwaccBlockedOrRacing := by
  unfold Obligations.MulwaccBlockedOrRacing
  intro zoff x y s
  refine ⟨fun hblocked => execMulwacc_blocked zoff x y s ((cmdReady_eq_false_iff s).mpr hblocked),
    fun hr ho hoverlap => execMulwacc_races zoff x y s hr ho ?_⟩
  obtain ⟨hb, -⟩ := (cmdReady_iff s).mp hr
  rwa [racesWith_idle s zoff hb, List.any_eq_true]

/-! ### Other instances -/

theorem step_otherComplete (s : State) (k : Nat) (o : OtherCommand) (rest : List Event) (hl : s.cfg.legal = true)
    (ho : s.others[k]? = some o) (ha : s.agenda = .otherComplete k :: rest) :
    step s = .next
      (putOthers (s.others.eraseIdx k) (putZ (accumulate s.z o.zoff (clmul64 o.x o.y)) (proceed rest s))) := by
  simp only [step_event s _ rest hl ha, takeEvent, otherComplete, proceed_others, proceed_z, ho]

/-- Settles O37: the step changes Z, where it is this block's own accumulation, the open windows and the agenda. -/
theorem otherInstanceSharesOnlyZ : Obligations.OtherInstanceSharesOnlyZ := by
  unfold Obligations.OtherInstanceSharesOnlyZ
  intro s k o rest hl hwf ho ha
  refine ⟨_, step_otherComplete s k o rest hl ho ha, fun n => ?coefficients, ?frame⟩
  case coefficients => rw [putOthers_z, putZ_z, zCoefficient_accumulate _ _ _ _ hwf, productCoefficient]
  case frame => simp only [putOthers, putZ, proceed]

end Sys2Proof.Machine
end

section
/-! Faults are precise: a sequence of commands and then one that faults (60_exceptions.md R56). -/

namespace Sys2Proof.Machine

theorem canRun_proceed {is : List Instr} {s : State} (agenda : List Event) (h : CanRun is s) :
    CanRun is (proceed agenda s) where
  config := h.config
  ready := h.ready
  buffer := h.buffer
  commands := by
    rintro ⟨zoff, x, y⟩ hmem
    obtain ⟨hrange, hrace⟩ := h.commands _ hmem
    rw [noRace_iff] at hrace ⊢
    exact ⟨hrange, by rwa [proceed_racesWith]⟩

@[simp] theorem proceed_proceed (rest agenda : List Event) (s : State) :
    proceed rest (proceed agenda s) = proceed rest s := rfl

/-- What a completed command leaves does not depend on what stands after it in the client's stream. -/
theorem afterMulwacc_accept (zoff : BitVec 26) (x y : Word) (rest : List Event) (s : State) :
    afterMulwacc zoff x y (accept rest s) = proceed rest (afterMulwacc zoff x y (accept [] s)) := by
  have hlatch (w : Transaction) : latch w (accept rest s) = proceed rest (latch w (accept [] s)) := rfl
  rw [afterMulwacc, hlatch, complete_proceed]

/-- The first command of a sequence completes to one state, whatever stands after it in the client's stream. -/
theorem step_command_before (i : Instr) (is : List Instr) (s : State) (h : CanRun (i :: is) s) :
    ∃ t, CanRun is t ∧ ∀ rest, step (proceed (.exec (encode i) :: rest) s) = .next (proceed rest t) := by
  obtain ⟨t', hfirst, hcan, -⟩ :=
    step_command_canRun i is (proceed (commandStream (i :: is)) s) (canRun_proceed _ h) rfl
  obtain ⟨hl, hr, -, hcommands⟩ := h
  obtain ⟨hrange, hrace⟩ := hcommands i (List.mem_cons_self ..)
  cases i with
  | mulwacc zoff x y =>
    have ho : outOfRange s.cfg zoff = false := by simpa [inRange] using hrange
    have hc : s.racesWith zoff = false := (noRace_iff s zoff x y).mp hrace
    have hstep : ∀ rest, step (proceed (.exec (encode (.mulwacc zoff x y)) :: rest) s) =
        .next (proceed rest (afterMulwacc zoff x y (accept [] s))) := fun rest =>
      calc step (proceed (.exec (encode (.mulwacc zoff x y)) :: rest) s)
        _ = exec (.mulwacc zoff x y) (accept rest s) :=
          step_exec_decoded (proceed (.exec _ :: rest) s) _ _ rest hl hr (decode_encode _) rfl
        _ = .next (afterMulwacc zoff x y (accept rest s)) :=
          exec_completes zoff x y (accept rest s) hr ho (by rwa [accept_racesWith])
        _ = .next (proceed rest (afterMulwacc zoff x y (accept [] s))) :=
          congrArg Host.Outcome.next (afterMulwacc_accept zoff x y rest s)
    obtain rfl := Host.Outcome.next.inj ((hstep (commandStream is)).symm.trans hfirst)
    exact ⟨_, hcan, by simpa only [proceed_proceed] using hstep⟩

/-- A sequence of commands runs to one state, ready for the next, whatever stands after it in the client's stream. -/
theorem run_commands_before (is : List Instr) (s : State) (h : CanRun is s) :
    ∃ t, CanRun [] t ∧ ∀ rest, run is.length (proceed (commandStream is ++ rest) s) = .next (proceed rest t) := by
  induction is generalizing s with
  | nil => exact ⟨s, h, fun _ => rfl⟩
  | cons i is ih =>
    obtain ⟨u, hu, hstep⟩ := step_command_before i is s h
    obtain ⟨t, ht, hrun⟩ := ih u hu
    exact ⟨t, ht, fun rest => (run_next _ _ _ (hstep (commandStream is ++ rest))).trans (hrun rest)⟩

/-- A faulted, idle block accepts no command over any run without a reset (60_exceptions.md R56, R57). -/
theorem run_faulted_cmdReady (n : Nat) (s t : State) (hf : s.fault = true) (hb : s.busy = false)
    (hno : Event.reset ∉ s.agenda) (h : run n s = .next t) : t.cmdReady = false := by
  obtain ⟨_, _, _, _, -, rfl⟩ := run_faulted n s t hf hb hno h
  exact cmdReady_of_fault _ hf

/-- Settles O24: the commands before the faulting one run as they would alone, and its own step is a fault entry. -/
theorem faultsArePrecise : Obligations.FaultsArePrecise := by
  unfold Obligations.FaultsArePrecise
  intro is bad rest s hl hr hwf hcommands hbad
  have hcan : CanRun is s := ⟨hl, hr, hwf, hcommands⟩
  obtain ⟨t, ht, hrun⟩ := run_commands_before is s hcan
  obtain ⟨t', hrun', -, hcoeff, hlast⟩ := run_commands is (proceed (commandStream is) s) (canRun_proceed _ hcan) rfl
  have halone := hrun []
  rw [List.append_nil] at halone
  obtain rfl := Host.Outcome.next.inj (halone.symm.trans hrun')
  have hcfg : t.cfg = s.cfg := noStepWritesConfiguration _ (proceed (commandStream is) s) (proceed [] t) halone
  have hbefore := hrun (.exec bad :: rest)
  have hfault := step_command_faults (proceed (.exec bad :: rest) t) bad rest ht.config ht.ready (.inr rfl)
    (hbad.imp_right fun ho => by rwa [proceed_cfg, hcfg])
  obtain ⟨hb, -⟩ := (cmdReady_iff t).mp ht.ready
  refine ⟨_, _, hbefore, (run_succ _ _ _ hbefore).trans hfault, hcoeff, rfl, rfl, rfl, rfl, hb, hlast,
    raise_fault _ _ _, rfl, fun hno n v hv => run_faulted_cmdReady n _ v ?faulted ?idle hno hv⟩
  case faulted => exact raise_fault _ _ _
  case idle => simpa using hb

end Sys2Proof.Machine
end

section
/-! The end of a run, and the stuck client (60_exceptions.md R58, 70_reset_and_hazards.md R75). -/

namespace Sys2Proof.Machine

theorem Event.isCommand_eq_false_iff (e : Event) : e.isCommand = false ↔ ∀ t, e ≠ .exec t ∧ e ≠ .issue t := by
  cases e <;> simp [Event.isCommand]

theorem commandsLeft_eq_false_iff (agenda : List Event) :
    commandsLeft agenda = false ↔ ∀ e ∈ agenda, ∀ t, e ≠ .exec t ∧ e ≠ .issue t := by
  simp only [commandsLeft, List.any_eq_false, Bool.not_eq_true, Event.isCommand_eq_false_iff]

theorem commandsLeft_of_command {t : Transaction} {agenda rest : List Event}
    (h : agenda = .exec t :: rest ∨ agenda = .issue t :: rest) : commandsLeft agenda = true := by
  rcases h with rfl | rfl <;> rfl

theorem exists_command_of_offersCommand {agenda : List Event} (h : offersCommand agenda = true) :
    ∃ t rest, agenda = .exec t :: rest ∨ agenda = .issue t :: rest := by
  cases agenda with
  | nil => cases h
  | cons e rest =>
    cases e with
    | exec t => exact ⟨t, rest, .inl rfl⟩
    | issue t => exact ⟨t, rest, .inr rfl⟩
    | _ => cases h

/-- A client that offers a command to a faulted block has no step (60_exceptions.md R58). -/
theorem step_stuck (s : State) (hl : s.cfg.legal = true) (h : s.stuck = true) :
    step s = .refused .issueWhileBlocked := by
  obtain ⟨⟨hoffers, hb⟩, hf⟩ : (offersCommand s.agenda = true ∧ s.busy = false) ∧ s.fault = true := by
    simpa [State.stuck] using h
  obtain ⟨t, rest, ha | ha⟩ := exists_command_of_offersCommand hoffers
  · rw [step_exec s t rest hl ha, offer_stuck _ _ _ _ hb hf]
  · rw [step_issue s t rest hl ha, offer_stuck _ _ _ _ hb hf]

/-- The end of a run is decided by the agenda and by STATUS. -/
theorem successfulEnd_congr {s t : State} (hagenda : t.agenda = s.agenda) (hstatus : t.status = s.status) :
    t.successfulEnd = s.successfulEnd := by
  simp only [State.successfulEnd, State.busy, State.fault, hagenda, hstatus]

theorem successfulEnd_proceed {s : State} {e : Event} {rest : List Event} (h : s.successfulEnd = true)
    (ha : s.agenda = e :: rest) : (proceed rest s).successfulEnd = true := by
  rw [successfulEnd_iff] at h ⊢
  obtain ⟨hnone, hidle⟩ := h
  rw [ha, commandsLeft_cons, Bool.or_eq_false_iff] at hnone
  exact ⟨hnone.2, hidle⟩

/-- A run that is at its end stays there: no step offers a command, and an idle block does nothing by itself. -/
theorem step_successfulEnd (s t : State) (hs : s.successfulEnd = true) (h : step s = .next t) :
    t.successfulEnd = true := by
  obtain ⟨hnone, hb, -⟩ := (successfulEnd_iff s).mp hs
  obtain ⟨-, hcase⟩ := step_cases s t h
  cases hcase with
  | hold => rwa [tick_idle s hb]
  | cycle rest ha =>
    rw [tick_idle (proceed rest s) hb]
    exact successfulEnd_proceed hs ha
  | illegal _ _ ha | range _ _ ha => simp [commandsLeft_of_command ha] at hnone
  | issue _ _ ha => simp [commandsLeft_of_command (.inr ha)] at hnone
  | exec _ _ ha => simp [commandsLeft_of_command (.inl ha)] at hnone
  | waited rest ha | otherIdle _ rest ha => exact successfulEnd_proceed hs ha
  | reset rest ha =>
    obtain ⟨hrest, -⟩ := (successfulEnd_iff _).mp (successfulEnd_proceed hs ha)
    exact (successfulEnd_iff _).mpr ⟨hrest, resetBlock_busy _, resetBlock_fault _⟩
  | read _ _ rest ha | writeZ _ _ rest ha | otherIssue _ rest _ _ _ ha | otherComplete _ rest _ ha
  | otherAbandon _ rest ha =>
    have hrest := successfulEnd_proceed hs ha
    rwa [successfulEnd_congr (s := proceed rest s) (by simp) (by simp)]

/-- Settles O30: the end of a run by its three conditions, each of which a step keeps. -/
theorem stuckIsNoSuccessfulEnd : Obligations.StuckIsNoSuccessfulEnd := by
  unfold Obligations.StuckIsNoSuccessfulEnd
  intro s hl
  have hfaulted : s.fault = true → s.successfulEnd = false := fun hf => by simp [State.successfulEnd, hf]
  refine ⟨fun hstuck => ⟨step_stuck s hl hstuck, hfaulted ?stuck⟩, hfaulted, ?busy, ?ends,
    fun hs => ⟨fun t => step_successfulEnd s t hs, fun ha => ?nothing⟩⟩
  case stuck => exact (Bool.and_eq_true_iff.mp hstuck).2
  case busy => exact fun hb => by simp [State.successfulEnd, hb]
  case ends => rw [successfulEnd_iff, commandsLeft_eq_false_iff]
  case nothing =>
    obtain ⟨-, hb, -⟩ := (successfulEnd_iff s).mp hs
    rw [step_nothing s hl ha, tick_idle s hb]

end Sys2Proof.Machine
end

section
/-! The parameters that build no machine (60_exceptions.md R59). -/

namespace Sys2Proof

theorem Config.exists_ofR_iff (r latency : Nat) (hl : 0 < latency) :
    (∃ c, Config.ofR r latency = some c) ↔ ringLegal r = true := by
  simp [Config.ofR_eq_some_iff, hl]

/-- The source's test of r, on a 32-bit word, is the test of the number it stands for. -/
theorem ringLegalWord_eq (r : BitVec 32) : ringLegalWord r = ringLegal r.toNat := by
  have hodd : r.getLsbD 0 = decide (r.toNat % 2 = 1) := Nat.testBit_zero r.toNat
  rw [Bool.eq_iff_iff, ringLegal_iff, ringLegalWord, hodd, BitVec.msb_eq_decide]
  simp only [Bool.and_eq_true, decide_eq_true_iff, Bool.not_eq_true', decide_eq_false_iff_not]
  omega

namespace Machine

theorem build_of_illegal_ring (r latency : Nat) (z : Memory) (agenda : List Event) (h : ringLegal r = false) :
    build r latency z agenda = .error .invalidParameter := by
  simp [build, Config.ofR, Config.legal, h]

theorem step_of_illegal_ring (s : State) (h : ringLegal s.cfg.r = false) : step s = .refused .invalidParameter := by
  simp [step, Config.legal, h]

end Machine

/-- Settles O47: each refusal is that of one check, the check of r or the check of EXT_WORDS. -/
theorem illegalParameterBuildsNoMachine : Obligations.IllegalParameterBuildsNoMachine := by
  unfold Obligations.IllegalParameterBuildsNoMachine
  refine ⟨fun r latency hl => ?builds, fun r => ?word, Machine.build_of_illegal_ring, Machine.step_of_illegal_ring,
    Machine.build_of_illegal_ring 4 1 [] [] (by decide), Machine.build_of_illegal_ring 0 1 [] [] (by decide),
    ⟨_, rfl⟩, fun n latency hn => ?extWords⟩
  case builds => rw [Config.exists_ofR_iff r latency hl, ringLegal_iff]
  case word => rw [ringLegalWord_eq, ringLegal_iff]
  case extWords =>
    have hillegal : ¬ extWordsLegal n = true := by
      rw [extWordsLegal_iff]
      omega
    rw [Config.ofExtWords, if_neg hillegal]

end Sys2Proof
end

section
/-! The in-flight window of the block's own command: the cycles before its last one, its COMPLETE, and a reset in it
(70_reset_and_hazards.md R65 to R72). -/

namespace Sys2Proof.Machine

/-! ### Reset (70_reset_and_hazards.md R65, R66) -/

theorem resetBlock_cmdReady (s : State) : (resetBlock s).cmdReady = true :=
  (cmdReady_iff _).mpr ⟨resetBlock_busy s, resetBlock_fault s⟩

/-- Settles O25: the step of a reset is `resetBlock`, field by field. -/
theorem resetLeavesSpecState : Obligations.ResetLeavesSpecState := by
  unfold Obligations.ResetLeavesSpecState
  intro s rest hl ha
  exact ⟨_, step_reset s rest hl ha, resetBlock_fault _, resetBlock_busy _, resetBlock_cause _, rfl, rfl, rfl,
    resetBlock_cmdReady _, rfl, rfl, rfl, rfl, rfl, rfl, rfl⟩

/-- A reset put at the front of the agenda. -/
theorem step_proceed_reset (s : State) (rest : List Event) (hl : s.cfg.legal = true) :
    step (proceed (.reset :: rest) s) = .next (resetBlock (proceed rest s)) :=
  step_reset (proceed _ s) rest hl rfl

/-! ### The cycles of a window before its last one -/

/-- The state k cycles further into the window. -/
def shortenBy (k : Nat) (s : State) : State := { s with remaining := s.remaining - k }

theorem shortenBy_shorten (k : Nat) (s : State) : shortenBy k (shorten s) = shortenBy (k + 1) s := by
  simp only [shortenBy, shorten, Nat.sub_sub, Nat.add_comm]

theorem shortenBy_proceed (k : Nat) (rest : List Event) (s : State) :
    shortenBy k (proceed rest s) = proceed rest (shortenBy k s) := rfl

/-- COMPLETE does not look at how the window passed. -/
theorem complete_shortenBy (k : Nat) (s : State) : complete (shortenBy k s) = complete s := by
  simp only [complete, shortenBy, State.ifZoff]

theorem tick_shortenBy (k : Nat) (s : State) (hb : s.busy = true) (hk : k + 1 < s.remaining) :
    tick (shortenBy k s) = shortenBy (k + 1) s :=
  tick_window (shortenBy k s) hb (Nat.lt_sub_iff_add_lt'.mpr hk)

theorem tick_shortenBy_last (k : Nat) (s : State) (hb : s.busy = true) (hk : s.remaining ≤ k + 1) :
    tick (shortenBy k s) = complete s := by
  rw [tick_last (shortenBy k s) hb (Nat.sub_le_iff_le_add'.mpr hk), complete_shortenBy]

/-- Reset forgets the command in flight, and the cycles that have passed of its window (70_reset_and_hazards.md R67). -/
theorem resetBlock_shortenBy_latch (t : Transaction) (k : Nat) (rest agenda : List Event) (s : State) :
    resetBlock (proceed rest (shortenBy k (latch t (accept agenda s)))) = resetBlock (proceed rest s) := rfl

/-- A run of `cycle` events that is shorter than the window. -/
theorem run_cycles (k : Nat) (s : State) (agenda : List Event) (hl : s.cfg.legal = true) (hb : s.busy = true)
    (ha : s.agenda = List.replicate k .cycle ++ agenda) (hk : k < s.remaining) :
    run k s = .next (proceed agenda (shortenBy k s)) := by
  induction k generalizing s with
  | zero =>
    obtain rfl : s.agenda = agenda := ha
    rfl
  | succ k ih =>
    rw [List.replicate_succ, List.cons_append] at ha
    have hstep : step s = .next (proceed (List.replicate k .cycle ++ agenda) (shorten s)) := by
      rw [step_event s _ _ hl ha, takeEvent, tick_proceed, tick_window s hb (by omega)]
    rw [run_next k s _ hstep, ih (proceed _ (shorten s)) hl hb rfl (Nat.lt_sub_of_add_lt hk), shortenBy_proceed,
      proceed_proceed, shortenBy_shorten]

/-! ### Agendas that wait for the window to end -/

/-- While the block is busy nothing is taken from such an agenda: it is empty, or it begins with an offered command
(70_reset_and_hazards.md R70) or with a wait (R71 item 2). -/
def WaitsInWindow (agenda : List Event) : Prop :=
  agenda = [] ∨ offersCommand agenda = true ∨ ∃ rest, agenda = .wait :: rest

theorem step_waits (s : State) (hl : s.cfg.legal = true) (hb : s.busy = true) (ha : WaitsInWindow s.agenda) :
    step s = .next (tick s) := by
  rcases ha with ha | hoffers | ⟨rest, ha⟩
  · exact step_nothing s hl ha
  · obtain ⟨t, rest, ha | ha⟩ := exists_command_of_offersCommand hoffers
    · rw [step_exec s t rest hl ha, offer_busy _ _ _ _ hb]
    · rw [step_issue s t rest hl ha, offer_busy _ _ _ _ hb]
  · rw [step_event s _ rest hl ha, takeEvent, if_pos hb]

section
variable (s : State) (hl : s.cfg.legal = true) (hb : s.busy = true) (ha : WaitsInWindow s.agenda)
include hl hb ha

/-- Before its last cycle a window only gets shorter (70_reset_and_hazards.md R70). -/
theorem run_window (k : Nat) (hk : k < s.remaining) : run k s = .next (shortenBy k s) := by
  induction k with
  | zero => rfl
  | succ k ih =>
    rw [run_succ k s _ (ih (by omega)), step_waits (shortenBy k s) hl hb ha, tick_shortenBy k s hb hk]

/-- The last cycle of a window is the COMPLETE of its command (70_reset_and_hazards.md R72). -/
theorem run_window_completes (n : Nat) (hn : s.remaining = n) (hpos : 0 < n) : run n s = .next (complete s) := by
  obtain ⟨k, rfl⟩ := Nat.exists_eq_add_one.mpr hpos
  rw [run_succ k s _ (run_window s hl hb ha k (by omega)), step_waits (shortenBy k s) hl hb ha,
    tick_shortenBy_last k s hb hn.le]

end

/-- An idle block with nothing on its agenda stays as it is. -/
theorem run_idle (n : Nat) (s : State) (hl : s.cfg.legal = true) (hb : s.busy = false) (ha : s.agenda = []) :
    run n s = .next s := by
  have hstep : step s = .next s := by rw [step_nothing s hl ha, tick_idle s hb]
  induction n with
  | zero => rfl
  | succ n ih => rw [run_next n s s hstep, ih]

/-! ### A command from its ISSUE on -/

theorem latency_pos (s : State) (hl : s.cfg.legal = true) : 0 < s.cfg.latency := (s.cfg.legal_iff.mp hl).2

section
variable (s : State) (t : Transaction) (rest : List Event) (hl : s.cfg.legal = true) (hr : s.cmdReady = true)
  (hm : isMulwacc t.cmd = true) (ho : outOfRange s.cfg (zoffField t.cmd) = false)
  (hc : s.racesWith (zoffField t.cmd) = false) (ha : s.agenda = .issue t :: rest) (hrest : WaitsInWindow rest)
include hl hr hm ho hc ha hrest

/-- LATENCY cycles long an accepted command is in flight (70_reset_and_hazards.md R70). -/
theorem run_issue_window (k : Nat) (hk : k < s.cfg.latency) :
    run (k + 1) s = .next (shortenBy k (latch t (accept rest s))) :=
  (run_next k s _ (step_issue_latches s t rest hl hr hm ho hc ha)).trans
    (run_window (latch t (accept rest s)) hl (latch_busy _ _) hrest k hk)

/-- The last of the LATENCY cycles after an ISSUE is its COMPLETE (70_reset_and_hazards.md R72). -/
theorem run_issue_completes : run (s.cfg.latency + 1) s = .next (complete (latch t (accept rest s))) :=
  (run_next _ s _ (step_issue_latches s t rest hl hr hm ho hc ha)).trans
    (run_window_completes (latch t (accept rest s)) hl (latch_busy _ _) hrest _ rfl (latency_pos s hl))

end

end Sys2Proof.Machine
end

section
/-! A command from its ISSUE to the end of its window: it completes, is abandoned, is waited for, and agrees with the
merged EXEC (70_reset_and_hazards.md R67, R70 to R74). -/

namespace Sys2Proof.Machine

/-- Settles O26: k cycles only shorten the window that ISSUE opens, and the reset forgets ISSUE and the cycles. -/
theorem resetInFlightAbandonsCommand : Obligations.ResetInFlightAbandonsCommand := by
  unfold Obligations.ResetInFlightAbandonsCommand
  intro s t k rest hl hr hm ho hc hk ha
  have hwindow := (run_next k s _ (step_issue_latches s t _ hl hr hm ho hc ha)).trans
    (run_cycles k (latch t (accept _ s)) (.reset :: rest) hl (latch_busy _ _) rfl hk)
  refine ⟨⟨_, hwindow, latch_busy t (accept _ s)⟩, resetBlock (proceed rest s), ?abandoned, rfl, rfl, resetBlock_busy _,
    rfl, rfl, rfl, step_proceed_reset s rest hl⟩
  case abandoned =>
    rw [run_succ (k + 1) s _ hwindow, step_proceed_reset (shortenBy k (latch t (accept _ s))) rest hl,
      resetBlock_shortenBy_latch]

/-- Settles O28: with nothing left on the agenda the window passes cycle by cycle to its COMPLETE. -/
theorem acceptedCommandCompletesAfterLatency : Obligations.AcceptedCommandCompletesAfterLatency := by
  unfold Obligations.AcceptedCommandCompletesAfterLatency
  intro s t hl hr hm ho hc ha
  obtain ⟨-, hf⟩ := (cmdReady_iff s).mp hr
  refine ⟨fun k hpos hk => ?window, _, run_issue_completes s t [] hl hr hm ho hc ha (.inl rfl), complete_busy _, ?fault,
    ?z, ?pLo, ?pHi, complete_resultWritten _⟩
  case window =>
    obtain ⟨j, rfl⟩ := Nat.exists_eq_add_one.mpr hpos
    exact ⟨_, run_issue_window s t [] hl hr hm ho hc ha (.inl rfl) j hk, latch_busy t (accept [] s), rfl, rfl, rfl, rfl,
      rfl⟩
  case fault => rw [complete_fault, latch_fault, accept_fault, hf]
  case z => rw [complete_z, latch_z, accept_z, latch_ifZoff, latch_ifX, latch_ifY]
  case pLo => rw [complete_pLo, latch_ifX, latch_ifY]
  case pHi => rw [complete_pHi, latch_ifX, latch_ifY]

/-- Settles O29: the agenda waits, so that the window passes to its COMPLETE, which leaves a ready block. -/
theorem offeredCommandWaitsForBusy : Obligations.OfferedCommandWaitsForBusy := by
  unfold Obligations.OfferedCommandWaitsForBusy
  intro s e rest hs hb ha he
  obtain ⟨-, -, hpos, -⟩ := hs.window.1 hb
  obtain ⟨-, -, -, hexclusive⟩ := hs.status
  have hf : s.fault = false := by simpa using fun hf : s.fault = true => hexclusive ⟨hf, hb⟩
  have hwaits : WaitsInWindow s.agenda := by
    rw [ha]
    exact .inr (he.imp id fun he => ⟨rest, by rw [he]⟩)
  refine ⟨fun k hk => ⟨_, run_window s hs.config hb hwaits k hk, hb, rfl, rfl⟩,
    _, run_window_completes s hs.config hb hwaits _ rfl hpos, ?ready, complete_agenda s, complete_pos s⟩
  case ready => exact (cmdReady_iff _).mpr ⟨complete_busy s, by rw [complete_fault, hf]⟩

/-- Settles O31, by the outcomes of ISSUE: a fault entry leaves an idle block, a race ends both runs, and a command in
flight completes at the end of its window. -/
theorem splitAndMergedCommandAgree : Obligations.SplitAndMergedCommandAgree := by
  unfold Obligations.SplitAndMergedCommandAgree
  intro s t hl hr
  change run _ (proceed [.issue t] s) = step (proceed [.exec t] s)
  obtain ⟨hb, -⟩ := (cmdReady_iff s).mp hr
  by_cases hbad : isMulwacc t.cmd = false ∨ outOfRange s.cfg (zoffField t.cmd) = true
  · rw [run_next _ _ _ (step_command_faults (proceed [.issue t] s) t [] hl hr (.inl rfl) hbad),
      step_command_faults (proceed [.exec t] s) t [] hl hr (.inr rfl) hbad]
    exact run_idle _ _ hl (by rwa [raise_busy]) rfl
  · obtain ⟨hm, ho⟩ : isMulwacc t.cmd = true ∧ outOfRange s.cfg (zoffField t.cmd) = false := by simpa using hbad
    have hsame (agenda : List Event) := proceed_racesWith agenda s (zoffField t.cmd)
    by_cases hc : s.racesWith (zoffField t.cmd) = true
    · rw [run_fault _ _ _ (step_command_races (proceed [.issue t] s) t [] hl hr hm ho ((hsame _).trans hc) (.inl rfl)),
        step_command_races (proceed [.exec t] s) t [] hl hr hm ho ((hsame _).trans hc) (.inr rfl)]
    · have hc : s.racesWith (zoffField t.cmd) = false := by simpa using hc
      rw [step_exec_completes (proceed [.exec t] s) t [] hl hr hm ho ((hsame _).trans hc) rfl]
      exact run_issue_completes (proceed [.issue t] s) t [] hl hr hm ho ((hsame _).trans hc) rfl (.inl rfl)

/-! ### A client write in the window (70_reset_and_hazards.md R71 item 3) -/

@[simp] theorem accept_racesAt (rest : List Event) (s : State) (j : Nat) :
    (accept rest s).racesAt j = s.racesAt j := by
  rw [State.racesAt, State.racesAt, accept_windows]

theorem latch_racesAt (t : Transaction) (s : State) (j : Nat) (hb : s.busy = false) :
    (latch t s).racesAt j = (targets (zoffField t.cmd) j || s.racesAt j) := by
  rw [State.racesAt, State.racesAt, latch_windows, windows_idle s hb, List.any_cons]

/-- A word that no open window covers is no target of the block's own command. -/
theorem targets_ifZoff_of_racesAt {s : State} {j : Nat} (hb : s.busy = true) (hc : s.racesAt j = false) :
    targets s.ifZoff j = false := by
  rw [racesAt_busy s j hb, Bool.or_eq_false_iff] at hc
  exact hc.1

/-- COMPLETE opens no window. -/
theorem complete_racesAt_of_racesAt {s : State} {j : Nat} (hb : s.busy = true) (hc : s.racesAt j = false) :
    (complete s).racesAt j = false := by
  rw [racesAt_false_iff, windows_busy s hb] at hc
  rw [racesAt_false_iff, complete_windows]
  exact fun w hw => hc w (List.mem_cons_of_mem _ hw)

/-- A write to another word changes nothing of what COMPLETE reads and records. -/
theorem accesses_writeWord {z : Memory} {zoff : BitVec 26} {j : Nat} (p : Product) (v : Word) (h : z.wf = true)
    (hj : targets zoff j = false) : accesses (z.writeWord j v) zoff p = accesses z zoff p := by
  obtain ⟨hlow, hhigh⟩ : j ≠ lowIndex zoff ∧ j ≠ highIndex zoff := by simpa [targets] using hj
  simp only [accesses, readWord_writeWord z j v _ h, if_neg hlow.symm, if_neg hhigh.symm]

/-- A write to another word commutes with the accumulation (20_memory.md R27). -/
theorem accumulate_writeWord {z : Memory} {zoff : BitVec 26} {j : Nat} (p : Product) (v : Word) (h : z.wf = true)
    (hj : targets zoff j = false) :
    accumulate (z.writeWord j v) zoff p = (accumulate z zoff p).writeWord j v := by
  have hwrite := wf_writeWord z j v h
  have hacc := wf_accumulate z zoff p h
  refine memory_ext_words _ _ (wf_accumulate _ zoff p hwrite) (wf_writeWord _ j v hacc) fun i => ?_
  rw [readWord_writeWord _ j v i hacc]
  by_cases hij : i = j
  · subst hij
    rw [readWord_accumulate_of_not_target p hwrite hj, readWord_writeWord z i v i h, if_pos rfl, if_pos rfl]
  · rw [readWord_accumulate _ zoff p i hwrite, readWord_accumulate z zoff p i h, readWord_writeWord z j v i h,
      if_neg hij, if_neg hij]

/-- A client write to a word that is no target commutes with COMPLETE. -/
theorem complete_putZ_writeWord (s : State) (j : Nat) (v : Word) (h : s.z.wf = true)
    (hj : targets s.ifZoff j = false) :
    complete (putZ (s.z.writeWord j v) s) = putZ ((complete s).z.writeWord j v) (complete s) := by
  rw [complete_z, ← accumulate_writeWord _ v h hj]
  simp only [complete, putZ_z, putZ_ifZoff, putZ_ifX, putZ_ifY, putZ_bus, accesses_writeWord _ v h hj]
  simp only [putZ]

section
variable (s : State) (j : Nat) (v : Word) (hl : s.cfg.legal = true) (hb : s.busy = true) (hj : j < s.cfg.extWords)
  (hc : s.racesAt j = false) (ha : s.agenda = [.writeZ j v])
include hl hb hj hc ha

/-- The client writes to a free word of Z, and then the window passes to its COMPLETE. -/
theorem run_writeZ_window (hwf : s.z.wf = true) (n : Nat) (hn : s.remaining = n) (hpos : 0 < n) :
    run (n + 1) s = .next (putZ ((complete s).z.writeWord j v) (proceed [] (complete s))) := by
  rw [run_next n s _ (step_writeZ_allowed s j v [] hl hj hc ha),
    run_window_completes (putZ (s.z.writeWord j v) (proceed [] s)) hl hb (.inl rfl) n hn hpos]
  have hcommutes := complete_putZ_writeWord (proceed [] s) j v hwf (targets_ifZoff_of_racesAt hb hc)
  rw [proceed_z, complete_proceed, proceed_z] at hcommutes
  rw [hcommutes]

/-- The client makes the same write after COMPLETE. -/
theorem step_complete_writeZ :
    step (complete s) = .next (putZ ((complete s).z.writeWord j v) (proceed [] (complete s))) :=
  step_writeZ_allowed (complete s) j v [] (by rwa [complete_cfg]) (by rwa [complete_cfg])
    (complete_racesAt_of_racesAt hb hc) (by rwa [complete_agenda])

end

/-- Settles O32: a write right after ISSUE and a write after COMPLETE end in one state, since the two commute. -/
theorem clientWriteInWindowCommutes : Obligations.ClientWriteInWindowCommutes := by
  unfold Obligations.ClientWriteInWindowCommutes
  intro s t j v hl hr hwf hm ho hc hj hrace htarget
  obtain ⟨hb, -⟩ := (cmdReady_iff s).mp hr
  have hsame (agenda : List Event) := (proceed_racesWith agenda s (zoffField t.cmd)).trans hc
  have hissue : step (proceed [.issue t, .writeZ j v] s) = .next (latch t (accept [.writeZ j v] s)) :=
    step_issue_latches (proceed _ s) t [.writeZ j v] hl hr hm ho (hsame _) rfl
  have hexec : step (proceed [.exec t, .writeZ j v] s) = .next (complete (latch t (accept [.writeZ j v] s))) :=
    step_exec_completes (proceed _ s) t [.writeZ j v] hl hr hm ho (hsame _) rfl
  have hfree : (latch t (accept [.writeZ j v] s)).racesAt j = false := by
    rw [latch_racesAt t (accept _ s) j hb, htarget, accept_racesAt, hrace, Bool.false_or]
  have hinWindow := run_writeZ_window (latch t (accept [.writeZ j v] s)) j v hl (latch_busy _ _) hj hfree rfl hwf
    s.cfg.latency rfl (latency_pos s hl)
  have hafter := step_complete_writeZ (latch t (accept [.writeZ j v] s)) j v hl (latch_busy _ _) hj hfree rfl
  exact ⟨_, (run_next _ _ _ hissue).trans hinWindow, (run_succ 1 _ _ ((run_one _).trans hexec)).trans hafter⟩

end Sys2Proof.Machine
end
